-- ==== Sys2Proof/Word.lean ====
section
/-! DEFINITION. The widths of the block's data paths (00_scope R8). -/

namespace Sys2Proof

/-- One byte lane of a data word (20_memory R61). -/
abbrev Byte := BitVec 8

/-- `DATA_W = 32`: entry values, care masks, write data, operands and bus words (00_scope R8). -/
abbrev Word := BitVec 32

/-- The widest key: `KEY_W <= 28` (00_scope R8). A register of `KEY_W` or `PMA_W` bits is held in 28 bits whose
bits above its own width are 0 (log 18). -/
abbrev Key := BitVec 28

/-- `WMASK_W = 4`: the byte write mask (00_scope R8). -/
abbrev Mask := BitVec 4

end Sys2Proof
end

