-- ==== Sys2Proof/Machine/Port.lean ====
section
/-! DEFINITION. What crosses the block's interfaces: the three command formats as the tuples of fields the spec gives
(30_encoding R80 to R84), the engine request, and the responses (42_register_adapter R165, 43_custom_instruction R200). -/

namespace Sys2Proof.Machine

/-- An engine operation; its code is `Op.code` (30_encoding R84). -/
inductive Op where
  | write | read | search | status
  deriving DecidableEq, Repr, Inhabited

/-- Operation codes, the same as the `CI` function selector (30_encoding R84, D3). -/
def Op.code : Op → BitVec 2
  | .write => 0
  | .read => 1
  | .search => 2
  | .status => 3

/-- The operation a 2-bit code names; all four values are defined (30_encoding R89, R91). -/
def Op.ofCode (c : BitVec 2) : Op :=
  if c = 0 then .write else if c = 1 then .read else if c = 2 then .search else .status

/-- The operations that carry an entry address and are range-checked (40_control_engine R115, C11). -/
def Op.takesAddress : Op → Bool
  | .write | .read => true
  | .search | .status => false

/-- Format `ER`: an engine request (30_encoding R84). `csb = false` is the active (0) level. -/
structure Request where
  csb : Bool
  op : Op
  addr : Key
  data : Word
  wmask : Mask
  deriving DecidableEq, Repr

/-- What the host (or a test, for `er`) presents in one cycle: the tuple of field values of one of the three formats
(30_encoding R80 to R84). `we = true` is a write. The value `v` of a read transaction is carried and ignored. -/
inductive Command where
  | ci (funct : BitVec 2) (opA opB : Word) (rd : Nat)
  | rt (we : Bool) (a sz : Nat) (v : Word)
  | er (csb : Bool) (op : BitVec 2) (addr : Key) (data : Word) (wmask : Mask)
  deriving DecidableEq, Repr

/-- Response status (60_exceptions R231). -/
inductive Status where
  | okay | outOfRange
  deriving DecidableEq, Repr

/-- `OKAY = 0`, `OUT_OF_RANGE = 1` (60_exceptions R231). -/
def Status.code : Status → Nat
  | .okay => 0
  | .outOfRange => 1

/-- A response of the one front end: `{status, rdata}` (42_register_adapter R165) or `{status, rd, data}`
(43_custom_instruction R200). `none` is the `-` of the rules: no meaningful data. -/
inductive Response where
  | reg (status : Status) (rdata : Option Word)
  | ci (status : Status) (rd : Nat) (data : Option Word)
  deriving DecidableEq, Repr

end Sys2Proof.Machine
end

