-- ==== Sys2Proof/Config.lean ====
section
/-! DEFINITION. What is fixed at construction (00_scope R8) and the free values: the spec's draws, which have no law
(00_scope R11). -/

namespace Sys2Proof

/-- `FRONT_END` (00_scope R8). `both` is the configuration the spec refuses (60_exceptions R234, D27). -/
inductive FrontEnd where
  | reg | ci | both
  deriving DecidableEq, Repr

/-- `BINDING`, the transport binding; no effect on any rule (00_scope R8, 42_register_adapter R185). -/
inductive Binding where
  | split | stream
  deriving DecidableEq, Repr

/-- The construction-time parameters (00_scope R8). `PMA_W` is derived (`Config.pmaW`), `DATA_W = 32` and
`WMASK_W = 4` are fixed by the types. -/
structure Config where
  entries : Nat
  keyW : Nat
  rdW : Nat
  base : Nat
  frontEnd : FrontEnd
  binding : Binding
  peEn : Bool
  deriving DecidableEq, Repr

/-- The instance `State.reset` is built with: the reference values of 00_scope R8 where it gives one (`KEY_W` 28, `BASE`
0x4000). DESIGN CHOICE (log 5), unsafe: `ENTRIES`, `RD_W`, `FRONT_END` and `BINDING` are open in the spec. -/
def Config.reference : Config :=
  { entries := 4, keyW := 28, rdW := 5, base := 0x4000, frontEnd := .reg, binding := .split, peEn := true }

/-- FREE VALUE (log 8): the `n`-th draw of a run (40_control_engine R108, R110; 42_register_adapter R179, R180). -/
opaque Config.freeWord : Nat → Word

/-- FREE VALUE (log 7): the held draw of a byte of `value` no Write has written, by byte address `4*i+k` (10_state R31). -/
opaque Config.initialByte : Nat → Byte

/-- FREE VALUE (log 6): the reset draw of `lat_op` (10_state R39). -/
opaque Config.resetLatOp : Machine.Op

/-- FREE VALUE (log 6): the reset draw of `lat_addr` (10_state R39). -/
opaque Config.resetLatAddr : Key

/-- FREE VALUE (log 6): the reset draw of `lat_data` (10_state R39). -/
opaque Config.resetLatData : Word

/-- FREE VALUE (log 6): the reset draw of `lat_wmask` (10_state R39). -/
opaque Config.resetLatWmask : Mask

/-- FREE VALUE (log 6): the reset draw of `match`, by bit (10_state R39). -/
opaque Config.resetMatch : Nat → Bool

/-- FREE VALUE (log 6): the reset draw of `res` (10_state R39). -/
opaque Config.resetRes : Key

/-- FREE VALUE (log 6): the reset draw of CONTROL (10_state R39). -/
opaque Config.resetControl : Byte

/-- FREE VALUE (log 6): the reset draw of WDATA (10_state R39). -/
opaque Config.resetWdata : Word

/-- FREE VALUE (log 6): the reset draw of ADDRESS (10_state R39). -/
opaque Config.resetAddress : Key

/-- FREE VALUE (log 6): the reset draw of `ci_rd` (10_state R39). -/
opaque Config.resetCiRd : Nat

end Sys2Proof
end

