-- ==== Sys2Proof/Machine/Bits.lean ====
section
/-! DEFINITION. The bit-field helpers of 00_scope R9: fields, zero extension, `clog2`, `ones_N`, `bytemask`. -/

namespace Sys2Proof.Machine

/-- Byte `k` of a word, bits `[8k+7:8k]` (20_memory R61). -/
def byteOf (w : Word) (k : Nat) : Byte := w.extractLsb' (8 * k) 8

/-- The word whose byte `k` is the `k`-th argument (20_memory R61). -/
def wordOf (b0 b1 b2 b3 : Byte) : Word := b3 ++ b2 ++ b1 ++ b0

/-- One lane of `bytemask`: `0xFF` where the mask bit is 1, else `0x00` (00_scope R9). -/
def lane (m : Mask) (k : Nat) : Byte := if m.getLsbD k then 0xFF else 0x00

/-- `bytemask(m)` (00_scope R9). -/
def bytemask (m : Mask) : Word := wordOf (lane m 0) (lane m 1) (lane m 2) (lane m 3)

/-- `x[w-1:0]`, kept in the width of `x` (00_scope R9). -/
def lowBits {n : Nat} (w : Nat) (x : BitVec n) : BitVec n := BitVec.ofNat n (x.toNat % 2 ^ w)

/-- `v[KEY_W-1:0]` of a 32-bit value (30_encoding R85, R86). -/
def keyBits (keyW : Nat) (v : Word) : Key := BitVec.ofNat 28 (v.toNat % 2 ^ keyW)

/-- `zext_32` of a key, an entry address or a PMA (30_encoding R87). -/
def zext32 (k : Key) : Word := k.setWidth 32

/-- `zext_32(ones_N)` (00_scope R9; the `kmask` of 20_memory R52). -/
def onesWord (n : Nat) : Word := BitVec.ofNat 32 (2 ^ n - 1)

/-- `clog2(n)`, the least `k` with `2^k >= n` (00_scope R9). -/
def clog2 (n : Nat) : Nat := if n ≤ 1 then 0 else Nat.log2 (n - 1) + 1

end Sys2Proof.Machine
end

