-- ==== Sys2Proof/Machine/Params.lean ====
section
/-! DEFINITION. The derived parameters and the constraints of 00_scope R8. -/

namespace Sys2Proof

/-- `PMA_W = max(1, clog2(ENTRIES))` (00_scope R8, 41_priority_encoder R145). -/
def Config.pmaW (c : Config) : Nat := max 1 (Machine.clog2 c.entries)

/-- `SETTLE_CYCLES`, the traversal of 40_control_engine R104 (00_scope R8). -/
def Config.settleCycles : Nat := 4

/-- The constraints of 00_scope R8: a configuration that violates one is refused (60_exceptions R234). -/
def Config.valid (c : Config) : Bool :=
  decide (1 ≤ c.keyW) && decide (c.keyW ≤ 28) && decide (1 ≤ c.entries) && decide (c.entries ≤ 2 ^ c.keyW)
    && decide (c.base % 16 = 0) && c.peEn && decide (c.frontEnd ≠ .both)

/-- The byte address just past the register window `[BASE, BASE+0x10)` (20_memory R58). -/
def Config.windowEnd (c : Config) : Nat := c.base + 0x10

end Sys2Proof
end

