-- ==== Sys2Proof/Machine/State.lean ====
section
/-! DEFINITION. The state of the block (10_state R20 to R39) as plain data, the reasons a step can stop, and the state right
after instantiation. -/

namespace Sys2Proof.Machine

/-- The engine state register `fsm` (10_state R23). -/
inductive Fsm where
  | idle | execute | probe | response
  deriving DecidableEq, Repr

/-- The 2-bit encoding of `fsm` (10_state R23, D2). -/
def Fsm.code : Fsm → BitVec 2
  | .idle => 0
  | .execute => 1
  | .probe => 2
  | .response => 3

/-- The register adapter's sequencer `ra_state` (10_state R33). -/
inductive RaState where
  | ready | waitStatus
  deriving DecidableEq, Repr

/-- The instruction adapter's sequencer `ci_state` (10_state R35). -/
inductive CiState where
  | ready | wait
  deriving DecidableEq, Repr

/-- The model faults (60_exceptions R233). A step of a state whose sticky flag is set stops with that flag's fault: after a
fault the model gives no meaning (R236). Safe: the model stops where the hardware goes on (log 9). -/
inductive Fault where
  /-- `fault_misuse` is set: WR.ADDRESS or WR.WDATA was accepted with `ctrl_v = 0` (42_register_adapter R172). Safe. -/
  | protocolMisuse
  /-- `fault_settle` is set: a register transaction was presented while the engine was busy or a STATUS read pending
  (42_register_adapter R168). Safe. -/
  | settleViolation
  /-- `fault_access` is set: a register-window access of a wrong width or offset (42_register_adapter R167). Safe. -/
  | badRegisterAccess
  deriving DecidableEq, Repr

/-- What the model refuses to give a meaning to. -/
inductive Refusal where
  /-- Raised by `exec` for an instruction that has no meaning in the model. Safe. -/
  | notModelled (mnemonic : String)
  /-- Raised by every step of an instance whose configuration violates 00_scope R8 (60_exceptions R234). Safe. -/
  | badConfiguration
  /-- Raised by ENG.WRITE and ENG.READ driven directly with `addr >= ENTRIES` (40_control_engine R109), and by a step in the
  EXECUTE cycle of a Write latched with such an address, which no accepted request leads to. Safe. -/
  | engineAddressOutOfRange
  /-- Raised by a CI command on an instance without the instruction adapter and by an RT transaction on one without the
  register adapter (10_state R20, 60_exceptions R234, R243; log 10). Safe. -/
  | frontEndAbsent
  /-- Raised by a step whose presented tuple has a field wider than the instance's port (log 20). Safe. -/
  | notPresentable
  deriving DecidableEq, Repr

/-- What a step or a meaning answers. -/
abbrev Answer (σ : Type) := Host.Outcome σ Fault Refusal

/-- Bytes by address in canonical form (`Memory.wf`). -/
abbrev Memory := List Host.Cell

/-- The state. Fields down to `faultAccess` are the spec's (10_state R39), `slots` the part of the host the router writes
(R21), `resp`, `host` and `draws` the model's own (logs 2, 8, 15). -/
structure State where
  /-- The construction parameters (00_scope R8, R265). -/
  cfg : Config
  fsm : Fsm
  latOp : Op
  latAddr : Key
  latData : Word
  latWmask : Mask
  /-- `match`: element `i` is bit `i`, for entry `i` (10_state R25). -/
  matchFlags : List Bool
  pma : Key
  res : Key
  /-- `value`: byte `k` of `value[i]` at address `4*i+k`; unlisted bytes were never written (10_state R30, R31). -/
  value : Memory
  /-- `care`: byte `k` of `care[i]` at address `4*i+k`; unlisted bytes are 0x00 (10_state R30, R31). -/
  care : Memory
  control : Byte
  wdata : Word
  address : Key
  ctrlV : Bool
  addrV : Bool
  dataV : Bool
  raState : RaState
  ciState : CiState
  ciRd : Nat
  faultMisuse : Bool
  faultSettle : Bool
  faultAccess : Bool
  /-- The host's destination slots `x[rd]` the router has written, by slot, in rising order (10_state R21). -/
  slots : List (Nat × Word)
  /-- The response given in the cycle the last step ran (42_register_adapter R165, 43_custom_instruction R200). -/
  resp : Option Response
  /-- What the host presents, the head in the current cycle and one element a cycle after it; `none` presents nothing. -/
  host : List (Option Command)
  /-- How many draws have been taken (00_scope R11). -/
  draws : Nat
  deriving DecidableEq, Repr

/-- Instantiation with configuration `c`: the only reset (10_state R39, 70_reset_and_hazards R260). The spec's draws are the
opaque constants of Config (log 6), cut to their registers' widths. -/
def State.instantiate (c : Config) : State :=
  { cfg := c
    fsm := .idle
    latOp := Config.resetLatOp
    latAddr := lowBits c.keyW Config.resetLatAddr
    latData := Config.resetLatData
    latWmask := Config.resetLatWmask
    matchFlags := (List.range c.entries).map Config.resetMatch
    pma := 0
    res := lowBits c.pmaW Config.resetRes
    value := []
    care := []
    control := Config.resetControl
    wdata := Config.resetWdata
    address := lowBits c.keyW Config.resetAddress
    ctrlV := false
    addrV := false
    dataV := false
    raState := .ready
    ciState := .ready
    ciRd := Config.resetCiRd % 2 ^ c.rdW
    faultMisuse := false
    faultSettle := false
    faultAccess := false
    slots := []
    resp := none
    host := []
    draws := 0 }

/-- The machine right after reset: an instance of the reference configuration (log 5). -/
def State.reset : State := State.instantiate Config.reference

end Sys2Proof.Machine
end

