-- ==== Sys2Proof/Machine/Memory.lean ====
section
/-! DEFINITION. Reading and writing lists sorted by address: the two byte memories of the Storage Bank and the host's slots.
`blank` is what an unlisted address reads as, where it is a byte at all. -/

namespace Sys2Proof.Machine

/-- The value listed at `a`. -/
def Memory.find {β : Type} (a : Nat) : List (Nat × β) → Option β
  | [] => none
  | (x, v) :: m => if x = a then some v else Memory.find a m

/-- `m` with `v` listed at `a`, at its place in the order. -/
def Memory.put {β : Type} (a : Nat) (v : β) : List (Nat × β) → List (Nat × β)
  | [] => [(a, v)]
  | (x, w) :: m =>
    if a < x then (a, v) :: (x, w) :: m
    else if x = a then (a, v) :: m
    else (x, w) :: Memory.put a v m

/-- `m` with nothing listed at `a`. -/
def Memory.erase {β : Type} (a : Nat) : List (Nat × β) → List (Nat × β)
  | [] => []
  | (x, w) :: m => if x = a then m else (x, w) :: Memory.erase a m

/-- A write: a byte equal to what an unlisted address reads as is not listed. -/
def Memory.write (blank : Option Byte) (a : Nat) (b : Byte) (m : Memory) : Memory :=
  if some b = blank then Memory.erase a m else Memory.put a b m

/-- Addresses strictly rising. -/
abbrev Memory.Sorted {β : Type} (m : List (Nat × β)) : Prop := m.Pairwise fun x y => x.1 < y.1

/-- The canonical form: addresses strictly rising, and no entry equal to what an unlisted address reads as. -/
abbrev Memory.wf (blank : Option Byte) (m : Memory) : Prop :=
  Memory.Sorted m ∧ ∀ x ∈ m, some x.2 ≠ blank

/-- An unlisted byte of `value` was never written: it has no value of its own, but the held draw of `State.valueByte`
(10_state R31, log 7). -/
def Memory.valueBlank : Option Byte := none

/-- An unlisted byte of `care` is all don't-care (10_state R31). -/
def Memory.careBlank : Option Byte := some 0x00

end Sys2Proof.Machine
end

