-- ==== Sys2Proof/Machine/Storage.lean ====
section
/-! DEFINITION. The Storage Bank: its primitives `SbWrite`, `SbCompare`, `SbRead`, the verification probe (20_memory R50 to
R57), and the priority encoder that reduces its match vector (41_priority_encoder R140 to R146). -/

namespace Sys2Proof.Machine

/-- The byte of `value` at byte address `a`: what a Write stored, else the held draw (10_state R30, R31). -/
def State.valueByte (s : State) (a : Nat) : Byte := (Memory.find a s.value).getD (Config.initialByte a)

/-- The byte of `care` at byte address `a`; 0x00 where nothing narrowed it (10_state R30, R31). -/
def State.careByte (s : State) (a : Nat) : Byte := (Memory.find a s.care).getD 0x00

/-- `value[i]` (10_state R30). -/
def State.entryValue (s : State) (i : Nat) : Word :=
  wordOf (s.valueByte (4 * i)) (s.valueByte (4 * i + 1)) (s.valueByte (4 * i + 2)) (s.valueByte (4 * i + 3))

/-- `care[i]` (10_state R30). -/
def State.entryCare (s : State) (i : Nat) : Word :=
  wordOf (s.careByte (4 * i)) (s.careByte (4 * i + 1)) (s.careByte (4 * i + 2)) (s.careByte (4 * i + 3))

/-- The bytes of `d` that `m` selects, stored in entry `i` (20_memory R51). -/
def storeLanes (blank : Option Byte) (i : Nat) (d : Word) (m : Mask) (mem : Memory) : Memory :=
  [0, 1, 2, 3].foldl
    (fun mem k => if m.getLsbD k then Memory.write blank (4 * i + k) (byteOf d k) mem else mem) mem

/-- `SbWrite(i, d, m)` (20_memory R51): the masked bytes take the data and become fully cared. -/
def State.sbWrite (s : State) (i : Nat) (d : Word) (m : Mask) : State :=
  { s with
    value := storeLanes Memory.valueBlank i d m s.value
    care := storeLanes Memory.careBlank i (onesWord 32) m s.care }

/-- One lane of the match predicate. The first test is implied by the second: it lets a lane nothing cares about be decided
without looking at its value (log 19). -/
def hitLane (v care k kmask : Byte) : Bool :=
  care &&& kmask == 0 || (v ^^^ k) &&& care &&& kmask == 0

/-- `hit(i, k)` (20_memory R52), lane by lane: no bit below `KEY_W` that the entry cares about differs from the key's. -/
def State.hit (s : State) (i : Nat) (k : Key) : Bool :=
  [0, 1, 2, 3].all fun l =>
    hitLane (s.valueByte (4 * i + l)) (s.careByte (4 * i + l)) (byteOf (zext32 k) l) (byteOf (onesWord s.cfg.keyW) l)

/-- `SbCompare(k)` (20_memory R53). -/
def State.sbCompare (s : State) (k : Key) : List Bool := (List.range s.cfg.entries).map fun i => s.hit i k

/-- `SbRead(i)`, which no operation uses (20_memory R54). -/
def State.sbRead (s : State) (i : Nat) : Word := s.entryValue i

/-- `Probe(i)`, the verification observation (20_memory R57). -/
def State.probe (s : State) (i : Nat) : Word × Word := (s.entryValue i, s.entryCare i)

/-- `PE(f)`: the least index of a set flag, 0 where none is set (41_priority_encoder R141). -/
def priorityEncode (f : List Bool) : Key := BitVec.ofNat 28 ((f.findIdx? id).getD 0)

end Sys2Proof.Machine
end

