-- ==== Sys2Proof/Machine/Operands.lean ====
section
/-! DEFINITION. Operand assembly: the fields of the custom-instruction operands, of CONTROL and of the bus word, and the engine
requests the adapters form from them (30_encoding R83 to R86, 43_custom_instruction R201, R202). -/

namespace Sys2Proof.Machine

/-- `wm := opA[31:28]` (43_custom_instruction R201). -/
def opWmask (opA : Word) : Mask := opA.extractLsb' 28 4

/-- `addr := opA[27:0]`, the value the range check looks at (43_custom_instruction R201, R203). -/
def opAddr (opA : Word) : Nat := (opA.extractLsb' 0 28).toNat

/-- CONTROL bit 0, active low (30_encoding R83). -/
def controlCsb (control : Byte) : Bool := control[0]

/-- CONTROL bit 1: 0 selects Write, 1 Search (30_encoding R83, 42_register_adapter R162). -/
def controlWeb (control : Byte) : Bool := control[1]

/-- CONTROL bits [7:4] (30_encoding R83). -/
def controlWmask (c : Byte) : Mask := c.extractLsb' 4 4

/-- `v[7:0]`, what CONTROL stores of a bus word (30_encoding R83, R86). -/
def controlOf (v : Word) : Byte := v.extractLsb' 0 8

/-- The engine request of TCAM.WRITE (43_custom_instruction R202, row 0). -/
def writeRequest (c : Config) (opA opB : Word) : Request :=
  { csb := false, op := .write, addr := keyBits c.keyW opA, data := opB, wmask := opWmask opA }

/-- The engine request of TCAM.READ (R202, row 1). -/
def readRequest (c : Config) (opA : Word) : Request :=
  { csb := false, op := .read, addr := keyBits c.keyW opA, data := 0, wmask := 0 }

/-- The engine request of TCAM.SEARCH (R202, row 2). -/
def searchRequest (c : Config) (opA : Word) : Request :=
  { csb := false, op := .search, addr := keyBits c.keyW opA, data := 0, wmask := 0 }

/-- The engine request of TCAM.STATUS (R202, row 3) and of RD.STATUS (42_register_adapter R175). -/
def statusRequest : Request := { csb := false, op := .status, addr := 0, data := 0, wmask := 0 }

/-- The engine request of a register-path Search for key `a` (42_register_adapter R173). -/
def regSearchRequest (a : Key) : Request := { csb := false, op := .search, addr := a, data := 0, wmask := 0 }

/-- The engine request of a register-path Write (42_register_adapter R173, R174). -/
def regWriteRequest (a : Key) (d : Word) (control : Byte) : Request :=
  { csb := false, op := .write, addr := a, data := d, wmask := controlWmask control }

end Sys2Proof.Machine
end

