-- ==== Sys2Proof/Machine/Flags.lean ====
section
/-! DEFINITION. The flags and the other combinational outputs of the block: `ready`, `done`, `result` (10_state R28), the
Control State bundle (40_control_engine R106), the presence flags (10_state R32) and the sticky fault flags (R36). -/

namespace Sys2Proof.Machine

/-- `ready := (S.fsm = IDLE)` (10_state R28). -/
def State.ready (s : State) : Bool := s.fsm == .idle

/-- `done := (S.fsm = RESPONSE)` (10_state R28). -/
def State.done (s : State) : Bool := s.fsm == .response

/-- `result := S.res`, zero-extended as every consumer takes it (10_state R28, 30_encoding R87). -/
def State.result (s : State) : Word := zext32 s.res

/-- The Control State bundle `{sb_csb, sb_web, sb_wmask}` (10_state R29). -/
structure Bundle where
  csb : Bool
  web : Bool
  wmask : Mask
  deriving DecidableEq, Repr

/-- The bundle of each cycle (40_control_engine R106). -/
def State.bundle (s : State) : Bundle :=
  match s.fsm with
  | .execute =>
    match s.latOp with
    | .write => { csb := false, web := false, wmask := s.latWmask }
    | .search => { csb := false, web := true, wmask := 0 }
    | .read | .status => { csb := true, web := true, wmask := 0 }
  | .idle | .probe | .response => { csb := true, web := true, wmask := 0 }

/-- A CONTROL write: `ctrl_v` set, the other two cleared (42_register_adapter R170). -/
def State.armControl (s : State) : State := { s with ctrlV := true, addrV := false, dataV := false }

/-- `S.addr_v <- 1` (42_register_adapter R173). -/
def State.markAddress (s : State) : State := { s with addrV := true }

/-- `S.data_v <- 1` (42_register_adapter R174). -/
def State.markData (s : State) : State := { s with dataV := true }

/-- The start of an operation clears all three presence flags (42_register_adapter R173, R174). -/
def State.clearPresence (s : State) : State := { s with ctrlV := false, addrV := false, dataV := false }

/-- `raise Fault(kind)`: sets the sticky flag of the kind (00_scope R10, 60_exceptions R233). -/
def State.raise (s : State) : Fault → State
  | .protocolMisuse => { s with faultMisuse := true }
  | .settleViolation => { s with faultSettle := true }
  | .badRegisterAccess => { s with faultAccess := true }

/-- The fault a faulted state stops with, in the order of 60_exceptions R235; `none` where no flag is set. -/
def State.raised (s : State) : Option Fault :=
  if s.faultSettle then some .settleViolation
  else if s.faultAccess then some .badRegisterAccess
  else if s.faultMisuse then some .protocolMisuse
  else none

end Sys2Proof.Machine
end

