-- ==== Sys2Proof/Machine/Ops.lean ====
section
/-! DEFINITION. The shared operations of a cycle: the engine's step (40_control_engine R101 to R116), the delivery of results
by the adapter (42_register_adapter R176, 43_custom_instruction R211), and what every meaning checks first. The block has no
trap entry and no trap return (60_exceptions R239): the shared operation in their place is `State.raise` (Machine/Flags). -/

namespace Sys2Proof.Machine

/-- `draw(PMA_W)`: the next free value, `PMA_W` bits of it (00_scope R11). -/
def State.drawPma (s : State) : Key := BitVec.ofNat 28 ((Config.freeWord s.draws).toNat % 2 ^ s.cfg.pmaW)

/-- The free value of this draw has been taken. -/
def State.drawn (s : State) : State := { s with draws := s.draws + 1 }

/-- `S.fsm <- f`. -/
def State.goto (s : State) (f : Fsm) : State := { s with fsm := f }

/-- `S.match <- f` (10_state R25). -/
def State.setMatch (s : State) (f : List Bool) : State := { s with matchFlags := f }

/-- `S.pma <- p` (10_state R26). -/
def State.setPma (s : State) (p : Key) : State := { s with pma := p }

/-- `S.res <- r` (10_state R27). -/
def State.setRes (s : State) (r : Key) : State := { s with res := r }

/-- Acceptance of a request: the latch is written and EXECUTE follows (40_control_engine R102). -/
def State.latch (s : State) (r : Request) : State :=
  { s with latOp := r.op, latAddr := r.addr, latData := r.data, latWmask := r.wmask, fsm := .execute }

/-- The EXECUTE cycle's effect (40_control_engine R108, R110, R112, R116). -/
def State.executePhase (s : State) : State :=
  match s.latOp with
  | .write => s.sbWrite s.latAddr.toNat s.latData s.latWmask
  | .search => s.setMatch (s.sbCompare s.latAddr)
  | .read | .status => s

/-- The PROBE cycle's effect (40_control_engine R108, R110, R114, R116). -/
def State.probePhase (s : State) : State :=
  match s.latOp with
  | .write | .read => s.drawn.setRes s.drawPma
  | .search => (s.setPma (priorityEncode s.matchFlags)).setRes (priorityEncode s.matchFlags)
  | .status => s.setRes s.pma

/-- The engine's cycle under the request `req` (`none` is `req_valid = 0`): the next-state function of 40_control_engine
R101, with the effect of the state it leaves. -/
def State.engineCycle (s : State) (req : Option Request) : State :=
  match s.fsm with
  | .idle =>
    match req with
    | some r => if r.csb then s else s.latch r
    | none => s
  | .execute => s.executePhase.goto .probe
  | .probe => s.probePhase.goto .response
  | .response => s.goto .idle

/-- `respond(...)` in this cycle (00_scope R10). -/
def State.respond (s : State) (r : Response) : State := { s with resp := some r }

/-- A new cycle starts with no response given. -/
def State.quiet (s : State) : State := { s with resp := none }

/-- The register adapter delivers a pending STATUS read in the RESPONSE cycle (42_register_adapter R176). -/
def State.deliverStatus (s : State) : State :=
  if s.raState = .waitStatus ∧ s.fsm = .response then
    { s with raState := .ready, resp := some (.reg .okay (some s.result)) }
  else s

/-- The result router delivers to the destination slot in the RESPONSE cycle (43_custom_instruction R211). The response carries
the result for every operation (log 16). -/
def State.route (s : State) : State :=
  if s.ciState = .wait ∧ s.fsm = .response then
    { s with
      ciState := .ready
      slots := Memory.put s.ciRd s.result s.slots
      resp := some (.ci .okay s.ciRd (some s.result)) }
  else s

/-- What the one front end delivers in this cycle (10_state R20). -/
def State.deliver (s : State) : State :=
  match s.cfg.frontEnd with
  | .reg => s.quiet.deliverStatus
  | .ci => s.quiet.route
  | .both => s.quiet

/-- One clock cycle under the request `req`, every read being of the state at the start of the cycle (00_scope R7, R10): the
delivery leaves `fsm`, `res` and the latch to the engine as they were. -/
def State.tick (s : State) (req : Option Request) : State := s.deliver.engineCycle req

/-- A state in the EXECUTE cycle of a Write latched with an address that is no entry's: no accepted request leads here
(20_memory R55), and `SbWrite` has no meaning for it (20_memory R51). -/
def State.strayWrite (s : State) : Bool :=
  s.fsm == .execute && s.latOp == .write && decide (s.cfg.entries ≤ s.latAddr.toNat)

/-- What comes before any meaning: a refused configuration has none (60_exceptions R234), a faulted state has none (R236), a
stray Write has none (40_control_engine R109). -/
def State.whenLive (s : State) (k : Answer State) : Answer State :=
  if s.cfg.valid = false then .refused .badConfiguration
  else
    match s.raised with
    | some f => .fault f
    | none => if s.strayWrite then .refused .engineAddressOutOfRange else k

/-- A cycle in which nothing is presented to the block. -/
def State.idleCycle (s : State) : Answer State := s.whenLive (.next (s.tick none))

/-- The host keeps presenting a command the instruction adapter did not accept (43_custom_instruction R205, D26). -/
def State.hold (s : State) (cmd : Command) : State := { s with host := some cmd :: s.host }

/-- The head of what the host presents is taken: the cycle it was presented in is this one. -/
def State.advance (s : State) : State := { s with host := s.host.tail }

/-- What the host presents in this cycle. -/
def State.presented (s : State) : Option Command := s.host.head?.join

/-- The acceptance condition of the instruction adapter (43_custom_instruction R204). -/
def State.ciAccepts (s : State) : Bool := s.fsm == .idle && s.ciState == .ready

/-- The acceptance condition of the register adapter (42_register_adapter R168). -/
def State.regAccepts (s : State) : Bool := s.fsm == .idle && s.raState == .ready

/-- The instruction adapter waits for the result that goes to slot `rd` (43_custom_instruction R204). -/
def State.awaitResult (s : State) (rd : Nat) : State := { s with ciRd := rd, ciState := .wait }

/-- The register adapter waits for the Status of a STATUS read (42_register_adapter R175). -/
def State.awaitStatus (s : State) : State := { s with raState := .waitStatus }

/-- `S.CONTROL <- c` (42_register_adapter R170). -/
def State.setControl (s : State) (c : Byte) : State := { s with control := c }

/-- `S.WDATA <- v` (42_register_adapter R174). -/
def State.setWdata (s : State) (v : Word) : State := { s with wdata := v }

/-- `S.ADDRESS <- a` (42_register_adapter R173). -/
def State.setAddress (s : State) (a : Key) : State := { s with address := a }

/-- A custom-instruction command `cmd` presented in this cycle, which forms the request `r`, delivers to slot `rd` and, if
`checked`, must name an entry at `addr` (43_custom_instruction R203, R204, R205). -/
def State.ciCycle (s : State) (cmd : Command) (r : Request) (rd : Nat) (checked : Bool) (addr : Nat) : Answer State :=
  s.whenLive
    (if s.cfg.frontEnd ≠ .ci then .refused .frontEndAbsent
    else if s.ciAccepts = false then .next ((s.tick none).hold cmd)
    else if checked ∧ s.cfg.entries ≤ addr then .next ((s.tick none).respond (.ci .outOfRange rd none))
    else .next ((s.tick (some r)).awaitResult rd))

/-- A register transaction presented in this cycle: SettleViolation is checked first (42_register_adapter R168, R169). `k` is
the rest of the dispatch. The cycle that raises still delivers and steps the engine (log 24). -/
def State.regCycle (s : State) (k : Answer State) : Answer State :=
  s.whenLive
    (if s.cfg.frontEnd ≠ .reg then .refused .frontEndAbsent
    else if s.regAccepts = false then .next ((s.tick none).raise .settleViolation)
    else k)

/-- An engine request driven directly (40_control_engine R102, R103, R109). -/
def State.engCycle (s : State) (r : Request) : Answer State :=
  s.whenLive
    (if s.ready ∧ r.op.takesAddress ∧ s.cfg.entries ≤ r.addr.toNat then .refused .engineAddressOutOfRange
    else .next (s.tick (some r)))

end Sys2Proof.Machine
end

