-- ==== Sys2Proof/Machine/Engine.lean ====
section
/-! DEFINITION. The engine requests driven directly, as a test does (40_control_engine R100 to R118, R109). A request is accepted
only in IDLE; its effects follow in the EXECUTE, PROBE and RESPONSE cycles (`State.engineCycle`). -/

namespace Sys2Proof.Machine

/-- ENG.WRITE (R108, R109). -/
def execEngWrite (addr : Key) (data : Word) (wmask : Mask) (s : State) : Answer State :=
  s.engCycle { csb := false, op := .write, addr := addr, data := data, wmask := wmask }

/-- ENG.READ (R109, R110). -/
def execEngRead (addr : Key) (data : Word) (wmask : Mask) (s : State) : Answer State :=
  s.engCycle { csb := false, op := .read, addr := addr, data := data, wmask := wmask }

/-- ENG.SEARCH (R111 to R115): `addr` is the key. -/
def execEngSearch (addr : Key) (data : Word) (wmask : Mask) (s : State) : Answer State :=
  s.engCycle { csb := false, op := .search, addr := addr, data := data, wmask := wmask }

/-- ENG.STATUS (R116). -/
def execEngStatus (addr : Key) (data : Word) (wmask : Mask) (s : State) : Answer State :=
  s.engCycle { csb := false, op := .status, addr := addr, data := data, wmask := wmask }

end Sys2Proof.Machine
end

