-- ==== Sys2Proof/Machine/Instruction.lean ====
section
/-! DEFINITION. The custom-instruction commands (43_custom_instruction R200 to R214): each forms the request of its row of R202
and is accepted, held or rejected by the shared `State.ciCycle`. The result arrives in the RESPONSE cycle (`State.route`). -/

namespace Sys2Proof.Machine

/-- TCAM.WRITE (R206). -/
def execTcamWrite (opA opB : Word) (rd : Nat) (s : State) : Answer State :=
  s.ciCycle (.ci 0 opA opB rd) (writeRequest s.cfg opA opB) rd true (opAddr opA)

/-- TCAM.READ (R207): a defined no-op that still takes the traversal. -/
def execTcamRead (opA opB : Word) (rd : Nat) (s : State) : Answer State :=
  s.ciCycle (.ci 1 opA opB rd) (readRequest s.cfg opA) rd true (opAddr opA)

/-- TCAM.SEARCH (R208): the key is not range-checked. -/
def execTcamSearch (opA opB : Word) (rd : Nat) (s : State) : Answer State :=
  s.ciCycle (.ci 2 opA opB rd) (searchRequest s.cfg opA) rd false 0

/-- TCAM.STATUS (R209). -/
def execTcamStatus (opA opB : Word) (rd : Nat) (s : State) : Answer State :=
  s.ciCycle (.ci 3 opA opB rd) statusRequest rd false 0

end Sys2Proof.Machine
end

