-- ==== Sys2Proof/Machine/Register.lean ====
section
/-! DEFINITION. The register transactions (42_register_adapter R160 to R185), each after the settle check of the shared
`State.regCycle`. A transaction is accepted in an IDLE cycle, where the engine changes nothing but to accept a request. -/

namespace Sys2Proof.Machine

/-- An `OKAY` write response: no data. -/
def okayWrite : Response := .reg .okay none

/-- RD.STATUS (R175): starts an engine Status whatever CONTROL holds; the response is given in its RESPONSE cycle (R176). -/
def execRdStatus (s : State) : Answer State :=
  s.regCycle (.next (s.tick (some statusRequest)).awaitStatus)

/-- WR.STATUS (R177): STATUS is read-only, nothing changes. -/
def execWrStatus (_v : Word) (s : State) : Answer State :=
  s.regCycle (.next ((s.tick none).respond okayWrite))

/-- RD.CONTROL (R178). -/
def execRdControl (s : State) : Answer State :=
  s.regCycle (.next ((s.tick none).respond (.reg .okay (some (s.control.setWidth 32)))))

/-- WR.CONTROL (R170). -/
def execWrControl (v : Word) (s : State) : Answer State :=
  s.regCycle (.next (((s.tick none).armControl.setControl (controlOf v)).respond okayWrite))

/-- RD.WDATA (R179): write-only, the data is a draw. -/
def execRdWdata (s : State) : Answer State :=
  s.regCycle (.next ((s.tick none).drawn.respond (.reg .okay (some (Config.freeWord s.draws)))))

/-- WR.WDATA (R172, R174): in Write mode it starts the Write when the address is already present. A misuse only raises (log 9). -/
def execWrWdata (v : Word) (s : State) : Answer State :=
  s.regCycle
    (if s.ctrlV = false then .next ((s.tick none).raise .protocolMisuse)
    else if controlCsb s.control = false ∧ controlWeb s.control = false ∧ s.addrV = true then
      .next (((s.tick (some (regWriteRequest s.address v s.control))).clearPresence.setWdata v).respond okayWrite)
    else .next (((s.tick none).setWdata v).markData.respond okayWrite))

/-- RD.ADDRESS (R180): write-only, the data is a draw. -/
def execRdAddress (s : State) : Answer State :=
  s.regCycle (.next ((s.tick none).drawn.respond (.reg .okay (some (Config.freeWord s.draws)))))

/-- WR.ADDRESS (R171, R172, R173): with `csb = 1` it only latches, in Search mode it starts a Search, in Write mode an address
that is no entry's is rejected and the Write starts when the data is already present. A misuse only raises (log 9). -/
def execWrAddress (v : Word) (s : State) : Answer State :=
  s.regCycle
    (if s.ctrlV = false then .next ((s.tick none).raise .protocolMisuse)
    else if controlCsb s.control = true then
      .next (((s.tick none).setAddress (keyBits s.cfg.keyW v)).markAddress.respond okayWrite)
    else if controlWeb s.control = true then
      .next (((s.tick (some (regSearchRequest (keyBits s.cfg.keyW v)))).clearPresence.setAddress
        (keyBits s.cfg.keyW v)).respond okayWrite)
    else if s.cfg.entries ≤ v.toNat then .next ((s.tick none).respond (.reg .outOfRange none))
    else if s.dataV = true then
      .next (((s.tick (some (regWriteRequest (keyBits s.cfg.keyW v) s.wdata s.control))).clearPresence.setAddress
        (keyBits s.cfg.keyW v)).respond okayWrite)
    else .next (((s.tick none).setAddress (keyBits s.cfg.keyW v)).markAddress.respond okayWrite))

/-- An access inside the window of a wrong width or at a wrong offset changes no state and raises BadRegisterAccess, after the
settle check (R167, R169). -/
def badAccessCycle (s : State) : Answer State :=
  s.regCycle (.next ((s.tick none).raise .badRegisterAccess))

end Sys2Proof.Machine
end

