-- ==== Sys2Proof/Syntax.lean ====
section
/-! DEFINITION. The commands: one constructor per row of spec/opcode_table.json, with every field of its format
(30_encoding R81, R82, R84, R88). -/

namespace Sys2Proof

/-- A decoded command. The `tcam` commands keep both operands whole, and the `eng` requests every field, because an
ignored field is still presented (and, for `eng`, latched: 40_control_engine R102). -/
inductive Instr where
  /-- TCAM.WRITE, `funct = 0` (43_custom_instruction R206). -/
  | tcamWrite (opA opB : Word) (rd : Nat)
  /-- TCAM.READ, `funct = 1` (R207). -/
  | tcamRead (opA opB : Word) (rd : Nat)
  /-- TCAM.SEARCH, `funct = 2` (R208). -/
  | tcamSearch (opA opB : Word) (rd : Nat)
  /-- TCAM.STATUS, `funct = 3` (R209). -/
  | tcamStatus (opA opB : Word) (rd : Nat)
  /-- RD.STATUS, key 0x00 (42_register_adapter R175). -/
  | rdStatus
  /-- WR.STATUS, key 0x10 (R177). -/
  | wrStatus (v : Word)
  /-- RD.CONTROL, key 0x04 (R178). -/
  | rdControl
  /-- WR.CONTROL, key 0x14 (R170). -/
  | wrControl (v : Word)
  /-- RD.WDATA, key 0x08 (R179). -/
  | rdWdata
  /-- WR.WDATA, key 0x18 (R174). -/
  | wrWdata (v : Word)
  /-- RD.ADDRESS, key 0x0C (R180). -/
  | rdAddress
  /-- WR.ADDRESS, key 0x1C (R173). -/
  | wrAddress (v : Word)
  /-- ENG.WRITE, key 0b000 (40_control_engine R108). -/
  | engWrite (addr : Key) (data : Word) (wmask : Mask)
  /-- ENG.READ, key 0b001 (R110). -/
  | engRead (addr : Key) (data : Word) (wmask : Mask)
  /-- ENG.SEARCH, key 0b010 (R111). -/
  | engSearch (addr : Key) (data : Word) (wmask : Mask)
  /-- ENG.STATUS, key 0b011 (R116). -/
  | engStatus (addr : Key) (data : Word) (wmask : Mask)
  deriving DecidableEq, Repr

end Sys2Proof
end

