-- ==== Sys2Proof/Machine/Dispatch.lean ====
section
/-! DEFINITION. The meaning of each command, one arm per constructor of Instr. -/

namespace Sys2Proof.Machine

def exec (i : Instr) (s : State) : Host.Outcome State Fault Refusal :=
  match i with
  | .tcamWrite opA opB rd => Sys2Proof.Machine.execTcamWrite opA opB rd s
  | .tcamRead opA opB rd => Sys2Proof.Machine.execTcamRead opA opB rd s
  | .tcamSearch opA opB rd => Sys2Proof.Machine.execTcamSearch opA opB rd s
  | .tcamStatus opA opB rd => Sys2Proof.Machine.execTcamStatus opA opB rd s
  | .rdStatus => Sys2Proof.Machine.execRdStatus s
  | .wrStatus v => Sys2Proof.Machine.execWrStatus v s
  | .rdControl => Sys2Proof.Machine.execRdControl s
  | .wrControl v => Sys2Proof.Machine.execWrControl v s
  | .rdWdata => Sys2Proof.Machine.execRdWdata s
  | .wrWdata v => Sys2Proof.Machine.execWrWdata v s
  | .rdAddress => Sys2Proof.Machine.execRdAddress s
  | .wrAddress v => Sys2Proof.Machine.execWrAddress v s
  | .engWrite addr data wmask => Sys2Proof.Machine.execEngWrite addr data wmask s
  | .engRead addr data wmask => Sys2Proof.Machine.execEngRead addr data wmask s
  | .engSearch addr data wmask => Sys2Proof.Machine.execEngSearch addr data wmask s
  | .engStatus addr data wmask => Sys2Proof.Machine.execEngStatus addr data wmask s

end Sys2Proof.Machine
end

