-- ==== Sys2Proof/WellFormed.lean ====
section
/-! DEFINITION. Which commands are commands of an instance: every field fits the width its configuration gives it. -/

namespace Sys2Proof

/-- `rd` is an `RD_W`-bit slot identifier (30_encoding R81) and an `ER` address a `KEY_W`-bit value (R84); every other field
has its width by its type. -/
def wellFormed (c : Config) : Instr → Bool
  | .tcamWrite _ _ rd | .tcamRead _ _ rd | .tcamSearch _ _ rd | .tcamStatus _ _ rd => decide (rd < 2 ^ c.rdW)
  | .engWrite addr _ _ | .engRead addr _ _ | .engSearch addr _ _ | .engStatus addr _ _ => decide (addr.toNat < 2 ^ c.keyW)
  | .rdStatus | .rdControl | .rdWdata | .rdAddress => true
  | .wrStatus _ | .wrControl _ | .wrWdata _ | .wrAddress _ => true

end Sys2Proof
end

