-- ==== Sys2Proof/Decode.lean ====
section
/-! DEFINITION. The decoder, total on every tuple of field values, rejecting by name, and after it the encoder
(30_encoding R81 to R92). A decoder tells a command by its interface and then by `funct`, `{we, off}` or `{csb, op}` (R92). -/

namespace Sys2Proof

open Machine

/-- Why a tuple is no command of an instance. -/
inductive DecodeError where
  /-- An `RT` address outside `[BASE, BASE+0x10)`: not routed to the block (20_memory R58). -/
  | outsideWindow
  /-- An `RT` access inside the window that is not 32 bits wide at one of the four offsets (42_register_adapter R167). -/
  | badRegisterAccess
  /-- An `ER` request with `csb = 1`: not an operation (30_encoding R91). -/
  | inactiveRequest
  /-- `rd` does not fit in `RD_W` bits (log 20). -/
  | slotTooWide
  /-- An `ER` address does not fit in `KEY_W` bits (log 20). -/
  | addressTooWide
  deriving DecidableEq, Repr

/-- `CI`: all four `funct` values are defined (30_encoding R89). -/
def decodeCi (funct : BitVec 2) (opA opB : Word) (rd : Nat) : Instr :=
  match Op.ofCode funct with
  | .write => .tcamWrite opA opB rd
  | .read => .tcamRead opA opB rd
  | .search => .tcamSearch opA opB rd
  | .status => .tcamStatus opA opB rd

/-- `RT`: the register an offset selects (42_register_adapter R160, 30_encoding R88). -/
def decodeRt (we : Bool) (off : Nat) (v : Word) : Option Instr :=
  if off = 0x0 then some (if we then .wrStatus v else .rdStatus)
  else if off = 0x4 then some (if we then .wrControl v else .rdControl)
  else if off = 0x8 then some (if we then .wrWdata v else .rdWdata)
  else if off = 0xC then some (if we then .wrAddress v else .rdAddress)
  else none

/-- `ER`: all four `op` values are defined (30_encoding R91). -/
def decodeEr (op : BitVec 2) (addr : Key) (data : Word) (wmask : Mask) : Instr :=
  match Op.ofCode op with
  | .write => .engWrite addr data wmask
  | .read => .engRead addr data wmask
  | .search => .engSearch addr data wmask
  | .status => .engStatus addr data wmask

/-- The command a tuple stands for in an instance with configuration `c`. -/
def decode (c : Config) : Command → Except DecodeError Instr
  | .ci funct opA opB rd =>
    if rd < 2 ^ c.rdW then .ok (decodeCi funct opA opB rd) else .error .slotTooWide
  | .rt we a sz v =>
    if a < c.base ∨ c.windowEnd ≤ a then .error .outsideWindow
    else if sz ≠ 4 then .error .badRegisterAccess
    else
      match decodeRt we (a - c.base) v with
      | some i => .ok i
      | none => .error .badRegisterAccess
  | .er csb op addr data wmask =>
    if csb then .error .inactiveRequest
    else if addr.toNat < 2 ^ c.keyW then .ok (decodeEr op addr data wmask)
    else .error .addressTooWide

/-- The tuple of a command (30_encoding R81, R82, R84; the value of a read transaction is 0). -/
def encode (c : Config) : Instr → Command
  | .tcamWrite opA opB rd => .ci 0 opA opB rd
  | .tcamRead opA opB rd => .ci 1 opA opB rd
  | .tcamSearch opA opB rd => .ci 2 opA opB rd
  | .tcamStatus opA opB rd => .ci 3 opA opB rd
  | .rdStatus => .rt false (c.base + 0x0) 4 0
  | .wrStatus v => .rt true (c.base + 0x0) 4 v
  | .rdControl => .rt false (c.base + 0x4) 4 0
  | .wrControl v => .rt true (c.base + 0x4) 4 v
  | .rdWdata => .rt false (c.base + 0x8) 4 0
  | .wrWdata v => .rt true (c.base + 0x8) 4 v
  | .rdAddress => .rt false (c.base + 0xC) 4 0
  | .wrAddress v => .rt true (c.base + 0xC) 4 v
  | .engWrite addr data wmask => .er false 0 addr data wmask
  | .engRead addr data wmask => .er false 1 addr data wmask
  | .engSearch addr data wmask => .er false 2 addr data wmask
  | .engStatus addr data wmask => .er false 3 addr data wmask

/-- The front end whose port a command is presented on; `none` for a request driven straight into the engine. -/
def portOf : Command → Option FrontEnd
  | .ci _ _ _ _ => some .ci
  | .rt _ _ _ _ => some .reg
  | .er _ _ _ _ _ => none

/-- The decode key of a command as spec/opcode_table.json numbers it: `funct` (2 bits), `{we, off[3:0]}` (5 bits) or
`{csb, op[1:0]}` (3 bits) (30_encoding R81, R82, R84). -/
def tableKey (c : Config) : Command → Nat
  | .ci funct _ _ _ => funct.toNat
  | .rt we a _ _ => (if we then 16 else 0) + (a - c.base)
  | .er csb op _ _ _ => (if csb then 4 else 0) + op.toNat

/-- The command whose decode key is `w` and whose other fields are 0. The three formats' keys overlap and the table gives the
interface no bits (30_encoding R92): a key of 2 bits is a `CI` `funct`, of 3 bits an `ER` key, of 4 or 5 bits an `RT` key;
of a whole byte, the values 0 to 3 are read as `CI` and the others as `RT`. DESIGN CHOICE (log 3). -/
def tableCommand (c : Config) (nbits w : Nat) : Option Command :=
  if nbits ≤ 2 ∨ (6 ≤ nbits ∧ w < 4) then some (.ci (BitVec.ofNat 2 w) 0 0 0)
  else if nbits = 3 then some (.er (decide (4 ≤ w)) (BitVec.ofNat 2 w) 0 0 0)
  else if w < 32 then some (.rt (decide (16 ≤ w)) (c.base + w % 16) 4 0)
  else none

/-- What the decoder reads from an opcode table word, in the reference configuration (log 3). -/
def decodeTableWord (nbits w : Nat) : Option Instr :=
  match tableCommand Config.reference nbits w with
  | some cmd => (decode Config.reference cmd).toOption
  | none => none

end Sys2Proof
end

