-- ==== Sys2Proof/Machine/Fetch.lean ====
section
/-! DEFINITION. Taking what the host presents (10_state R22): the cycle of a tuple that is no command, and placing a command
where the next step takes it. The block fetches no instructions (20_memory R69). -/

namespace Sys2Proof.Machine

/-- The cycle in which a tuple that decodes to no command is presented: an access outside the window is not routed to the
block (20_memory R58), a request with `csb = 1` is not accepted (40_control_engine R102), a bad access inside the window
raises (42_register_adapter R167), and a tuple too wide for the port cannot be presented (log 20). -/
def undecodedCycle (e : DecodeError) (s : State) : Answer State :=
  match e with
  | .outsideWindow | .inactiveRequest => s.idleCycle
  | .badRegisterAccess => badAccessCycle s
  | .slotTooWide | .addressTooWide => s.whenLive (.refused .notPresentable)

/-- `s` with `cmd` presented in the current cycle, on an instance that has the port it comes by (log 4). -/
def State.present (s : State) (cmd : Command) : State :=
  { s with
    cfg := { s.cfg with frontEnd := (portOf cmd).getD s.cfg.frontEnd }
    host := some cmd :: s.host.tail }

end Sys2Proof.Machine
end

