-- ==== Sys2Proof/Machine/Step.lean ====
section
/-! DEFINITION. One step is one clock cycle (00_scope R7, log 1): what the host presents in it is decoded and run. -/

namespace Sys2Proof.Machine

/-- One clock cycle of the block with what the host presents in it. -/
def step (s : State) : Host.Outcome State Fault Refusal :=
  match s.presented with
  | none => s.advance.idleCycle
  | some cmd =>
    match decode s.cfg cmd with
    | .ok i => exec i s.advance
    | .error e => undecodedCycle e s.advance

/-- `s` with the command of an opcode table word presented in the current cycle (log 4); `s` where the word is no row's. -/
def State.withFetchWord (s : State) (nbits w : Nat) : State :=
  match tableCommand s.cfg nbits w with
  | some cmd => s.present cmd
  | none => s

end Sys2Proof.Machine
end

