-- ==== Sys2Proof/Safety.lean ====
section
/-! DEFINITION. What counts as a sound state and a quiet run: the terms the claims are stated in. -/

namespace Sys2Proof.Machine

/-- A state the model gives a cycle to: a configuration the spec allows, no sticky fault flag set (60_exceptions R234, R236), and
no stray Write in flight (40_control_engine R109). Every state of a fault-free run is one. -/
def State.Live (s : State) : Prop := s.cfg.valid = true ∧ s.raised = none ∧ s.strayWrite = false

/-- The instruction adapter is present and accepts a command in this cycle (43_custom_instruction R204). -/
def State.CiReady (s : State) : Prop := s.Live ∧ s.cfg.frontEnd = .ci ∧ s.fsm = .idle ∧ s.ciState = .ready

/-- The register adapter is present and accepts a transaction in this cycle (42_register_adapter R168). -/
def State.RegReady (s : State) : Prop := s.Live ∧ s.cfg.frontEnd = .reg ∧ s.fsm = .idle ∧ s.raState = .ready

/-- No command is in flight: the engine is idle and neither adapter waits for a result. -/
def State.Settled (s : State) : Prop := s.Live ∧ s.fsm = .idle ∧ s.raState = .ready ∧ s.ciState = .ready

/-- The host presents nothing in the next `n` cycles (`wait n`, 30_encoding R93). -/
def State.QuietFor (s : State) (n : Nat) : Prop := ∀ c ∈ s.host.take n, c = none

/-- Every byte of the Storage Bank reads as before, its value and its care mask. -/
def State.SameBank (s t : State) : Prop := ∀ a, t.valueByte a = s.valueByte a ∧ t.careByte a = s.careByte a

/-- The Storage Bank is in canonical form, every listed byte belongs to an entry, a care lane is all or nothing, and a lane
something cares about was written: no comparison ever looks at a held draw (20_memory R51, 10_state R31, D9). -/
def State.BankInv (s : State) : Prop :=
  Memory.wf Memory.valueBlank s.value ∧ Memory.wf Memory.careBlank s.care
    ∧ (∀ x ∈ s.value, x.1 < 4 * s.cfg.entries) ∧ (∀ x ∈ s.care, x.1 < 4 * s.cfg.entries)
    ∧ (∀ x ∈ s.care, x.2 = 0xFF) ∧ ∀ x ∈ s.care, (Memory.find x.1 s.value).isSome = true

/-- Every register holds a value of its own width (00_scope R8): KEY_W bits for the latched address and ADDRESS, PMA_W bits for
`res`, RD_W bits for `ci_rd`, one flag an entry for `match`, and `pma` is the index of an entry (41_priority_encoder R141). -/
def State.WidthInv (s : State) : Prop :=
  s.latAddr.toNat < 2 ^ s.cfg.keyW ∧ s.address.toNat < 2 ^ s.cfg.keyW ∧ s.pma.toNat < s.cfg.entries
    ∧ s.res.toNat < 2 ^ s.cfg.pmaW ∧ s.ciRd < 2 ^ s.cfg.rdW ∧ s.matchFlags.length = s.cfg.entries
    ∧ Memory.Sorted s.slots

/-- The sequencers agree: an adapter that waits is the instance's own and its operation is in flight, a pending STATUS read is an
engine Status (10_state R33, R35), and the engine's Write or Read in flight names an entry (20_memory R55). -/
def State.SequencerInv (s : State) : Prop :=
  (s.raState = .waitStatus → s.cfg.frontEnd = .reg ∧ s.fsm ≠ .idle ∧ s.latOp = .status)
    ∧ (s.ciState = .wait → s.cfg.frontEnd = .ci ∧ s.fsm ≠ .idle)
    ∧ (s.fsm ≠ .idle → s.latOp.takesAddress = true → s.latAddr.toNat < s.cfg.entries)
    ∧ (s.addrV = true → s.ctrlV = true) ∧ (s.dataV = true → s.ctrlV = true)
    ∧ (s.addrV = true → controlCsb s.control = false → controlWeb s.control = false → s.address.toNat < s.cfg.entries)

/-- The invariant every step keeps. -/
def State.Inv (s : State) : Prop := s.cfg.valid = true ∧ s.BankInv ∧ s.WidthInv ∧ s.SequencerInv

/-- `n` cycles, stopping at the first that is no next state. -/
def State.runCycles (n : Nat) (s : State) : Answer State := Host.Core.run core n s

/-- One pass of the engine for the command `i` taken in state `s`: accepted in one cycle, then one cycle each in EXECUTE, PROBE
and RESPONSE, ending in `u` (40_control_engine R104). -/
def Traversal (i : Instr) (s t1 t2 t3 u : State) : Prop :=
  exec i s = .next t1 ∧ step t1 = .next t2 ∧ step t2 = .next t3 ∧ step t3 = .next u
    ∧ t1.fsm = .execute ∧ t2.fsm = .probe ∧ t3.fsm = .response ∧ u.fsm = .idle

/-- A presented tuple with the value of a read transaction, which carries none, set to 0 (30_encoding R82, log 26). -/
def Command.clean : Command → Command
  | .rt false a sz _ => .rt false a sz 0
  | cmd => cmd

/-- A register transaction at an address the register window routes to the block (20_memory R58). -/
def State.InWindow (s : State) : Command → Prop
  | .rt _ a _ _ => s.cfg.base ≤ a ∧ a < s.cfg.windowEnd
  | _ => False

/-- The same instance with another transport binding. -/
def State.withBinding (s : State) (b : Binding) : State := { s with cfg := { s.cfg with binding := b } }

/-- An answer with its next state, if it has one, changed by `f`. -/
def Answer.map (f : State → State) : Answer State → Answer State
  | .next s => .next (f s)
  | .fault r => .fault r
  | .refused r => .refused r

end Sys2Proof.Machine
end

