-- ==== Sys2Proof/Certificates/Slice0/Obligations.lean ====
section
/-! DEFINITION. The statements for the provers, each over every state and configuration its hypotheses allow. The state an
instruction is given is the one with the presented command already taken; `u.host = s.host.drop 3` says that the three cycles
after acceptance took what the host presented in them. -/

open Sys2Proof Sys2Proof.Machine

/-- 30_encoding R81, R82, R84: no field of a command is dropped by its encoding. -/
def Obligations.DecodeEncodeRoundTrip : Prop :=
  ∀ (c : Config) (i : Instr), wellFormed c i = true → decode c (encode c i) = .ok i

/-- 30_encoding R81, R82, R84 and R88 to R92: the decoder accepts only the encodings of well-formed commands. That a tuple with
a field wider than R81 or R84 give it is refused, so that what decodes is well-formed, is the model's choice
(notes/assumptions/20.md), and so is that the value a tuple holds for a read transaction is ignored, which `clean` sets to 0
(notes/assumptions/26.md). -/
def Obligations.DecodeAcceptsOnlyEncodings : Prop :=
  ∀ (c : Config) (cmd : Command) (i : Instr), decode c cmd = .ok i → wellFormed c i = true ∧ cmd.clean = encode c i

/-- 30_encoding R81 to R84, 95_test_vectors W1, W2, W4 and 3.4: words written out from the spec decode to what they stand for. -/
def Obligations.SpecWordsDecode : Prop :=
  decode Config.reference (.ci 0 0xF0000003 0x0DDDDDCC 1) = .ok (.tcamWrite 0xF0000003 0x0DDDDDCC 1)
    ∧ decode Config.reference (.ci 2 0x00ABCDEF 0 3) = .ok (.tcamSearch 0x00ABCDEF 0 3)
    ∧ decode Config.reference (.rt true 0x4004 4 0xF0) = .ok (.wrControl 0xF0)
    ∧ decode Config.reference (.rt true 0x400C 4 0x0BBBBBBB) = .ok (.wrAddress 0x0BBBBBBB)
    ∧ decode Config.reference (.rt false 0x4000 4 0) = .ok .rdStatus
    ∧ decode Config.reference (.er false 0 2 0xCC 1) = .ok (.engWrite 2 0xCC 1)
    ∧ decode Config.reference (.rt true 0x4004 2 0xF0) = .error .badRegisterAccess
    ∧ decode Config.reference (.rt false 0x4002 4 0) = .error .badRegisterAccess

/-- 10_state R22, 30_encoding R92: a presented command is decoded and run, and taken off what the host presents. The queue of
what the host presents is the model's own (notes/assumptions/2.md). -/
def Obligations.StepRunsPresentedCommand : Prop :=
  ∀ (s : State) (cmd : Command) (rest : List (Option Command)) (i : Instr),
    s.host = some cmd :: rest → decode s.cfg cmd = .ok i → step s = exec i { s with host := rest }

/-- 10_state R39, 70_reset_and_hazards R260: the values the spec fixes at instantiation. The draws have no law and are not
mentioned. -/
def Obligations.InstantiationState : Prop :=
  ∀ c : Config,
    (State.instantiate c).cfg = c ∧ (State.instantiate c).fsm = .idle ∧ (State.instantiate c).pma = 0
      ∧ (∀ i, (State.instantiate c).entryCare i = 0)
      ∧ (State.instantiate c).ctrlV = false ∧ (State.instantiate c).addrV = false ∧ (State.instantiate c).dataV = false
      ∧ (State.instantiate c).raState = .ready ∧ (State.instantiate c).ciState = .ready
      ∧ (State.instantiate c).raised = none

/-- The invariant holds at instantiation with every configuration the spec allows (10_state R39), and at reset. -/
def Obligations.InvariantAtInstantiation : Prop :=
  (∀ c : Config, c.valid = true → (State.instantiate c).Inv) ∧ State.reset.Inv

/-- Every cycle keeps the invariant, whatever is presented in it. -/
def Obligations.StepKeepsInvariant : Prop :=
  ∀ s t : State, s.Inv → step s = .next t → t.Inv

/-- 70_reset_and_hazards R263, 40_control_engine R114: right after instantiation every entry matches every key, so the first
Search of any key returns 0. -/
def Obligations.FirstSearchReturnsZero : Prop :=
  ∀ (c : Config) (opA opB : Word) (rd : Nat), c.valid = true → c.frontEnd = .ci →
    ∃ t1 t2 t3 u, Traversal (.tcamSearch opA opB rd) (State.instantiate c) t1 t2 t3 u
      ∧ u.matchFlags = List.replicate c.entries true ∧ u.pma = 0 ∧ Memory.find rd u.slots = some 0

/-- 20_memory R51: the masked bytes take the data, become fully cared, and nothing else of the Storage Bank changes. -/
def Obligations.SbWriteMergesMaskedBytes : Prop :=
  ∀ (s : State) (i : Nat) (d : Word) (m : Mask),
    (s.sbWrite i d m).entryValue i = (s.entryValue i &&& ~~~ bytemask m) ||| (d &&& bytemask m)
      ∧ (s.sbWrite i d m).entryCare i = s.entryCare i ||| bytemask m
      ∧ ∀ j, j ≠ i → (s.sbWrite i d m).entryValue j = s.entryValue j ∧ (s.sbWrite i d m).entryCare j = s.entryCare j

/-- 20_memory R52: an entry matches a key when every bit below `KEY_W` that it cares about equals the key's. -/
def Obligations.HitComparesCaredKeyBits : Prop :=
  ∀ (s : State) (i : Nat) (k : Key),
    s.hit i k = true ↔ (s.entryValue i ^^^ zext32 k) &&& s.entryCare i &&& onesWord s.cfg.keyW = 0

/-- 20_memory R53: one flag an entry, all from the same bank, which is not changed. -/
def Obligations.CompareFlagsEveryEntry : Prop :=
  ∀ (s : State) (k : Key),
    (s.sbCompare k).length = s.cfg.entries
      ∧ ∀ i, i < s.cfg.entries →
        ((s.sbCompare k)[i]? = some true ↔
          (s.entryValue i ^^^ zext32 k) &&& s.entryCare i &&& onesWord s.cfg.keyW = 0)

/-- 40_control_engine R117 (d), 20_memory R71: in any cycle a byte of the Storage Bank changes only if it is a selected byte of
the Write in EXECUTE. -/
def Obligations.StorageChangesOnlyInWriteExecute : Prop :=
  ∀ s t : State, (step s = .next t ∨ ∃ i, exec i s = .next t) → ∀ a,
    (s.fsm = .execute ∧ s.latOp = .write ∧ a / 4 = s.latAddr.toNat ∧ s.latWmask.getLsbD (a % 4) = true →
      t.valueByte a = byteOf s.latData (a % 4) ∧ t.careByte a = 0xFF)
    ∧ (¬ (s.fsm = .execute ∧ s.latOp = .write ∧ a / 4 = s.latAddr.toNat ∧ s.latWmask.getLsbD (a % 4) = true) →
      t.valueByte a = s.valueByte a ∧ t.careByte a = s.careByte a)

/-- 20_memory R51: no cycle ever clears a care bit. -/
def Obligations.CareOnlyGrows : Prop :=
  ∀ s t : State, step s = .next t → ∀ i, s.entryCare i &&& t.entryCare i = s.entryCare i

/-- 41_priority_encoder R141, R142: the least set index, 0 where none is set, always an index of the vector. -/
def Obligations.PriorityEncoderLeastIndex : Prop :=
  ∀ f : List Bool, 0 < f.length → f.length ≤ 2 ^ 28 →
    (priorityEncode f).toNat < f.length
      ∧ (∀ i, f[i]? = some true → (∀ j, j < i → f[j]? = some false) → (priorityEncode f).toNat = i)
      ∧ ((∀ b ∈ f, b = false) → priorityEncode f = 0)

/-- 41_priority_encoder R143: a Search computes the smallest index that hits, or 0. -/
def Obligations.SearchFindsLeastHit : Prop :=
  ∀ (s : State) (k : Key), s.cfg.valid = true →
    (∀ i, i < s.cfg.entries → s.hit i k = true → (∀ j, j < i → s.hit j k = false) →
      (priorityEncode (s.sbCompare k)).toNat = i)
    ∧ ((∀ i, i < s.cfg.entries → s.hit i k = false) → priorityEncode (s.sbCompare k) = 0)

/-- 40_control_engine R102: an idle engine latches an active request; a cycle without one writes nothing. -/
def Obligations.EngineAcceptance : Prop :=
  (∀ (s : State) (op : BitVec 2) (addr : Key) (data : Word) (wmask : Mask) (rest : List (Option Command)),
    s.Live → s.fsm = .idle → s.host = some (.er false op addr data wmask) :: rest → addr.toNat < 2 ^ s.cfg.keyW →
    ((Op.ofCode op).takesAddress = true → addr.toNat < s.cfg.entries) →
      step s = .next { s with
        host := rest, resp := none, fsm := .execute, latOp := Op.ofCode op, latAddr := addr, latData := data,
        latWmask := wmask })
  ∧ (∀ s : State, s.Live → s.fsm = .idle →
      (s.presented = none ∨ ∃ op addr data wmask, s.presented = some (.er true op addr data wmask)) →
      step s = .next { s with host := s.host.tail, resp := none })

/-- 40_control_engine R103: a request presented to a busy engine is not accepted and not remembered. -/
def Obligations.BusyEngineIgnoresRequests : Prop :=
  ∀ (s : State) (csb : Bool) (op : BitVec 2) (addr : Key) (data : Word) (wmask : Mask) (rest : List (Option Command)),
    s.fsm ≠ .idle → addr.toNat < 2 ^ s.cfg.keyW →
      step { s with host := some (.er csb op addr data wmask) :: rest } = step { s with host := none :: rest }

/-- 40_control_engine R104, R105: whatever is presented, an accepted request is in EXECUTE, PROBE and RESPONSE for one cycle
each, `done` only in the last, and IDLE again in the fourth. -/
def Obligations.TraversalTakesFourCycles : Prop :=
  ∀ s t1 t2 t3 u : State, s.fsm = .idle → step s = .next t1 → t1.fsm ≠ .idle → step t1 = .next t2 → step t2 = .next t3 →
    step t3 = .next u →
      (t1.fsm = .execute ∧ t2.fsm = .probe ∧ t3.fsm = .response ∧ u.fsm = .idle)
        ∧ (t1.done = false ∧ t2.done = false ∧ t3.done = true ∧ u.done = false)
        ∧ (t1.ready = false ∧ t2.ready = false ∧ t3.ready = false ∧ u.ready = true)

/-- 40_control_engine R108: a Write commits its bytes and leaves a free value in `res`; nothing else but the latch changes. -/
def Obligations.EngWriteEffect : Prop :=
  ∀ (s : State) (addr : Key) (data : Word) (wmask : Mask),
    s.Settled → s.QuietFor 3 → addr.toNat < s.cfg.entries →
      ∃ t1 t2 t3, Traversal (.engWrite addr data wmask) s t1 t2 t3
        { s with
          value := (s.sbWrite addr.toNat data wmask).value,
          care := (s.sbWrite addr.toNat data wmask).care,
          latOp := .write, latAddr := addr, latData := data, latWmask := wmask, res := s.drawPma, draws := s.draws + 1,
          resp := none, host := s.host.drop 3 }

/-- 40_control_engine R110: a Read is a no-op that takes the traversal; `res` takes a free value. -/
def Obligations.EngReadEffect : Prop :=
  ∀ (s : State) (addr : Key) (data : Word) (wmask : Mask),
    s.Settled → s.QuietFor 3 → addr.toNat < s.cfg.entries →
      ∃ t1 t2 t3, Traversal (.engRead addr data wmask) s t1 t2 t3
        { s with
          latOp := .read, latAddr := addr, latData := data, latWmask := wmask, res := s.drawPma, draws := s.draws + 1,
          resp := none, host := s.host.drop 3 }

/-- 40_control_engine R111 to R115: a Search captures the match vector and encodes it into `pma` and `res`; its key is not
range-checked. -/
def Obligations.EngSearchEffect : Prop :=
  ∀ (s : State) (key : Key) (data : Word) (wmask : Mask),
    s.Settled → s.QuietFor 3 →
      ∃ t1 t2 t3, Traversal (.engSearch key data wmask) s t1 t2 t3
        { s with
          latOp := .search, latAddr := key, latData := data, latWmask := wmask, matchFlags := s.sbCompare key,
          pma := priorityEncode (s.sbCompare key), res := priorityEncode (s.sbCompare key), resp := none,
          host := s.host.drop 3 }

/-- 40_control_engine R116: a Status loads the PMA without a new comparison. -/
def Obligations.EngStatusEffect : Prop :=
  ∀ (s : State) (addr : Key) (data : Word) (wmask : Mask),
    s.Settled → s.QuietFor 3 →
      ∃ t1 t2 t3, Traversal (.engStatus addr data wmask) s t1 t2 t3
        { s with
          latOp := .status, latAddr := addr, latData := data, latWmask := wmask, res := s.pma, resp := none,
          host := s.host.drop 3 }

/-- 40_control_engine R109: a Write or Read driven directly with an address that is no entry's is refused. -/
def Obligations.DirectOutOfRangeRefused : Prop :=
  ∀ (s : State) (addr : Key) (data : Word) (wmask : Mask), s.Live → s.fsm = .idle → s.cfg.entries ≤ addr.toNat →
    exec (.engWrite addr data wmask) s = .refused .engineAddressOutOfRange
      ∧ exec (.engRead addr data wmask) s = .refused .engineAddressOutOfRange

/-- 10_state R26, 40_control_engine R117 (c): in any cycle `pma` changes only in the PROBE cycle of a Search. -/
def Obligations.PmaChangesOnlyInSearchProbe : Prop :=
  ∀ s t : State, (step s = .next t ∨ ∃ i, exec i s = .next t) →
    (s.fsm = .probe ∧ s.latOp = .search → t.pma = priorityEncode s.matchFlags)
      ∧ (¬ (s.fsm = .probe ∧ s.latOp = .search) → t.pma = s.pma)

/-- 40_control_engine R106: the Control State bundle of each cycle. -/
def Obligations.ControlStateBundle : Prop :=
  ∀ s : State,
    (s.fsm = .execute → s.latOp = .write → s.bundle = { csb := false, web := false, wmask := s.latWmask })
      ∧ (s.fsm = .execute → s.latOp = .search → s.bundle = { csb := false, web := true, wmask := 0 })
      ∧ (s.fsm = .execute → s.latOp = .read ∨ s.latOp = .status → s.bundle = { csb := true, web := true, wmask := 0 })
      ∧ (s.fsm ≠ .execute → s.bundle = { csb := true, web := true, wmask := 0 })

/-- 43_custom_instruction R206, R211: TCAM.WRITE commits the selected bytes of `opB` to entry `opA[27:0]` and delivers a free
value. That the response carries it is the model's choice (notes/assumptions/16.md). -/
def Obligations.TcamWriteEffect : Prop :=
  ∀ (s : State) (opA opB : Word) (rd : Nat), s.CiReady → s.QuietFor 3 → opAddr opA < s.cfg.entries →
    ∃ t1 t2 t3, Traversal (.tcamWrite opA opB rd) s t1 t2 t3
      { s with
        value := (s.sbWrite (opAddr opA) opB (opWmask opA)).value,
        care := (s.sbWrite (opAddr opA) opB (opWmask opA)).care,
        latOp := .write, latAddr := keyBits s.cfg.keyW opA, latData := opB, latWmask := opWmask opA,
        res := s.drawPma, draws := s.draws + 1, ciRd := rd,
        slots := Memory.put rd (zext32 s.drawPma) s.slots,
        resp := some (.ci .okay rd (some (zext32 s.drawPma))), host := s.host.drop 3 }

/-- 43_custom_instruction R207, R211: TCAM.READ changes neither the entries nor `pma` and delivers a free value, as TCAM.WRITE
does (notes/assumptions/16.md). -/
def Obligations.TcamReadEffect : Prop :=
  ∀ (s : State) (opA opB : Word) (rd : Nat), s.CiReady → s.QuietFor 3 → opAddr opA < s.cfg.entries →
    ∃ t1 t2 t3, Traversal (.tcamRead opA opB rd) s t1 t2 t3
      { s with
        latOp := .read, latAddr := keyBits s.cfg.keyW opA, latData := 0, latWmask := 0,
        res := s.drawPma, draws := s.draws + 1, ciRd := rd,
        slots := Memory.put rd (zext32 s.drawPma) s.slots,
        resp := some (.ci .okay rd (some (zext32 s.drawPma))), host := s.host.drop 3 }

/-- 43_custom_instruction R208, R211: TCAM.SEARCH delivers the PMA of the key `opA[KEY_W-1:0]`, whatever its other operand bits,
to the slot and in the response (notes/assumptions/16.md). -/
def Obligations.TcamSearchEffect : Prop :=
  ∀ (s : State) (opA opB : Word) (rd : Nat), s.CiReady → s.QuietFor 3 →
    let p := priorityEncode (s.sbCompare (keyBits s.cfg.keyW opA))
    ∃ t1 t2 t3, Traversal (.tcamSearch opA opB rd) s t1 t2 t3
      { s with
        latOp := .search, latAddr := keyBits s.cfg.keyW opA, latData := 0, latWmask := 0,
        matchFlags := s.sbCompare (keyBits s.cfg.keyW opA), pma := p, res := p, ciRd := rd,
        slots := Memory.put rd (zext32 p) s.slots,
        resp := some (.ci .okay rd (some (zext32 p))), host := s.host.drop 3 }

/-- 43_custom_instruction R209, R211: TCAM.STATUS delivers the PMA of the last Search, whatever its operands, to the slot and in
the response (notes/assumptions/16.md). -/
def Obligations.TcamStatusEffect : Prop :=
  ∀ (s : State) (opA opB : Word) (rd : Nat), s.CiReady → s.QuietFor 3 →
    ∃ t1 t2 t3, Traversal (.tcamStatus opA opB rd) s t1 t2 t3
      { s with
        latOp := .status, latAddr := 0, latData := 0, latWmask := 0, res := s.pma, ciRd := rd,
        slots := Memory.put rd (zext32 s.pma) s.slots,
        resp := some (.ci .okay rd (some (zext32 s.pma))), host := s.host.drop 3 }

/-- 43_custom_instruction R203: a Write or Read of no entry is not issued. -/
def Obligations.TcamOutOfRangeRejected : Prop :=
  ∀ (s : State) (opA opB : Word) (rd : Nat), s.CiReady → s.cfg.entries ≤ opAddr opA →
    exec (.tcamWrite opA opB rd) s = .next { s with resp := some (.ci .outOfRange rd none) }
      ∧ exec (.tcamRead opA opB rd) s = .next { s with resp := some (.ci .outOfRange rd none) }

/-- 43_custom_instruction R205: a command presented while the adapter cannot accept it is held: the cycle is one in which nothing
was presented, and the command is presented again in the next. Where it waits is the model's choice
(notes/assumptions/13.md). -/
def Obligations.BusyCommandIsHeld : Prop :=
  ∀ (s t : State) (funct : BitVec 2) (opA opB : Word) (rd : Nat) (rest : List (Option Command)),
    s.cfg.frontEnd = .ci → rd < 2 ^ s.cfg.rdW → s.fsm ≠ .idle ∨ s.ciState = .wait →
    step { s with host := none :: rest } = .next t →
      step { s with host := some (.ci funct opA opB rd) :: rest }
        = .next { t with host := some (.ci funct opA opB rd) :: rest }

/-- 43_custom_instruction R205, R211: a command presented right after another was accepted waits for its three cycles and is
still presented when the adapter can accept it (notes/assumptions/13.md). -/
def Obligations.HeldCommandReachesAcceptance : Prop :=
  ∀ (s : State) (funct : BitVec 2) (opA opB : Word) (rd : Nat) (rest : List (Option Command)),
    s.Live → s.cfg.frontEnd = .ci → s.fsm = .execute → s.ciState = .wait → rd < 2 ^ s.cfg.rdW →
    s.host = some (.ci funct opA opB rd) :: rest →
      ∃ u, s.runCycles 3 = .next u ∧ u.CiReady ∧ u.host = some (.ci funct opA opB rd) :: rest

/-- 42_register_adapter R170: a CONTROL write stores `v[7:0]` and starts a new sequence. -/
def Obligations.WrControlEffect : Prop :=
  ∀ (s : State) (v : Word), s.RegReady →
    exec (.wrControl v) s = .next { s with
      control := v.extractLsb' 0 8, ctrlV := true, addrV := false, dataV := false, resp := some (.reg .okay none) }

/-- 42_register_adapter R171: in Write mode an address that is no entry's, looked at whole, is rejected and nothing changes;
the same value as the key of a Search is not checked. -/
def Obligations.WrAddressOutOfRangeRejected : Prop :=
  ∀ (s : State) (v : Word), s.RegReady → s.ctrlV = true → s.control[0] = false → s.cfg.entries ≤ v.toNat →
    (s.control[1] = false → exec (.wrAddress v) s = .next { s with resp := some (.reg .outOfRange none) })
      ∧ (s.control[1] = true →
        ∃ t, exec (.wrAddress v) s = .next t ∧ t.fsm = .execute ∧ t.latOp = .search ∧ t.resp = some (.reg .okay none))

/-- 42_register_adapter R172, 00_scope R10, 60_exceptions R236: an ADDRESS or WDATA write with no CONTROL setup raises
ProtocolMisuse, and no later cycle has a meaning. That the raising cycle is a next state in which nothing else changed, ADDRESS
and WDATA kept, is the model's choice (notes/assumptions/9.md). -/
def Obligations.MisuseRaisesFault : Prop :=
  ∀ (s : State) (v : Word), s.RegReady → s.ctrlV = false →
    ∃ t, t = { s with faultMisuse := true, resp := none } ∧ exec (.wrAddress v) s = .next t ∧ exec (.wrWdata v) s = .next t
      ∧ ∀ u, step t ≠ .next u ∧ ∀ i, exec i t ≠ .next u

/-- 42_register_adapter R173: the four effects of an ADDRESS write that is let through. -/
def Obligations.WrAddressEffect : Prop :=
  ∀ (s : State) (v : Word), s.RegReady → s.ctrlV = true →
    (s.control[0] = true →
      exec (.wrAddress v) s = .next { s with
        address := keyBits s.cfg.keyW v, addrV := true, resp := some (.reg .okay none) })
    ∧ (s.control[0] = false → s.control[1] = true →
      exec (.wrAddress v) s = .next { s with
        address := keyBits s.cfg.keyW v, ctrlV := false, addrV := false, dataV := false,
        latOp := .search, latAddr := keyBits s.cfg.keyW v, latData := 0, latWmask := 0, fsm := .execute,
        resp := some (.reg .okay none) })
    ∧ (s.control[0] = false → s.control[1] = false → v.toNat < s.cfg.entries → s.dataV = true →
      exec (.wrAddress v) s = .next { s with
        address := keyBits s.cfg.keyW v, ctrlV := false, addrV := false, dataV := false,
        latOp := .write, latAddr := keyBits s.cfg.keyW v, latData := s.wdata, latWmask := s.control.extractLsb' 4 4,
        fsm := .execute, resp := some (.reg .okay none) })
    ∧ (s.control[0] = false → s.control[1] = false → v.toNat < s.cfg.entries → s.dataV = false →
      exec (.wrAddress v) s = .next { s with
        address := keyBits s.cfg.keyW v, addrV := true, resp := some (.reg .okay none) })

/-- 42_register_adapter R174: a WDATA write starts the Write when the address is present, and otherwise only latches. -/
def Obligations.WrWdataEffect : Prop :=
  ∀ (s : State) (v : Word), s.RegReady → s.ctrlV = true →
    (s.control[0] = false ∧ s.control[1] = false ∧ s.addrV = true →
      exec (.wrWdata v) s = .next { s with
        wdata := v, ctrlV := false, addrV := false, dataV := false,
        latOp := .write, latAddr := s.address, latData := v, latWmask := s.control.extractLsb' 4 4, fsm := .execute,
        resp := some (.reg .okay none) })
    ∧ (¬ (s.control[0] = false ∧ s.control[1] = false ∧ s.addrV = true) →
      exec (.wrWdata v) s = .next { s with wdata := v, dataV := true, resp := some (.reg .okay none) })

/-- 42_register_adapter R175, R176: a STATUS read runs an engine Status whatever CONTROL holds and answers with the PMA in its
RESPONSE cycle, waiting in `RA_WAIT_STATUS` until then. -/
def Obligations.RdStatusEffect : Prop :=
  ∀ s : State, s.RegReady → s.QuietFor 3 →
    ∃ t1 t2 t3, Traversal .rdStatus s t1 t2 t3
        { s with
          latOp := .status, latAddr := 0, latData := 0, latWmask := 0, res := s.pma,
          resp := some (.reg .okay (some (zext32 s.pma))), host := s.host.drop 3 }
      ∧ t1.raState = .waitStatus ∧ t2.raState = .waitStatus ∧ t3.raState = .waitStatus
      ∧ t1.resp = none ∧ t2.resp = none ∧ t3.resp = none

/-- 42_register_adapter R177: a STATUS write changes nothing and is answered `OKAY`. -/
def Obligations.WrStatusEffect : Prop :=
  ∀ (s : State) (v : Word), s.RegReady → exec (.wrStatus v) s = .next { s with resp := some (.reg .okay none) }

/-- 42_register_adapter R178: a CONTROL read returns the stored byte, zero-extended. -/
def Obligations.RdControlEffect : Prop :=
  ∀ s : State, s.RegReady →
    exec .rdControl s = .next { s with resp := some (.reg .okay (some (s.control.setWidth 32))) }

/-- 42_register_adapter R179, R180: reads of the write-only registers return a free value and change no register. -/
def Obligations.WriteOnlyReadsReturnDraws : Prop :=
  ∀ s : State, s.RegReady →
    exec .rdWdata s = .next { s with resp := some (.reg .okay (some (Config.freeWord s.draws))), draws := s.draws + 1 }
      ∧ exec .rdAddress s = .next { s with
        resp := some (.reg .okay (some (Config.freeWord s.draws))), draws := s.draws + 1 }

/-- 42_register_adapter R168, R169, 60_exceptions R235: a register transaction, legal or not, presented while the engine is busy
or a STATUS read is pending raises SettleViolation and nothing else. That the rest of the raising cycle is one in which nothing
was presented (a pending STATUS read is still delivered, and the engine still takes its cycle, 40_control_engine R101) is the
model's reading (notes/assumptions/24.md). -/
def Obligations.PrematureTransactionFaults : Prop :=
  ∀ (s t : State) (cmd : Command) (rest : List (Option Command)),
    s.cfg.frontEnd = .reg → s.fsm ≠ .idle ∨ s.raState = .waitStatus → s.InWindow cmd →
    step { s with host := none :: rest } = .next t →
      step { s with host := some cmd :: rest } = .next { t with faultSettle := true }

/-- 70_reset_and_hazards R270: after a transaction that starts an engine operation, a transaction presented in any of the next
three cycles raises SettleViolation, and one presented in the fourth does not; after one that starts no operation and raises
no fault, the adapter is ready in the next cycle. -/
def Obligations.SettleDelayAfterTrigger : Prop :=
  ∀ (s t : State) (i : Instr), s.RegReady → s.Inv → exec i s = .next t →
    (∀ (cmd : Command) (n : Nat) (rest : List (Option Command)),
      t.fsm ≠ .idle → s.host = List.replicate n none ++ some cmd :: rest → s.InWindow cmd →
        (n < 3 → ∃ u w, t.runCycles n = .next u ∧ step u = .next w ∧ w.faultSettle = true)
          ∧ (n = 3 → ∃ u, t.runCycles n = .next u ∧ u.RegReady ∧ ∀ w, step u = .next w → w.faultSettle = false))
      ∧ (t.fsm = .idle → t.raised = none → t.RegReady)

/-- 42_register_adapter R167: a wrong width or offset inside the window changes no state but `fault_access`. -/
def Obligations.BadAccessRaisesFault : Prop :=
  ∀ (s : State) (we : Bool) (a sz : Nat) (v : Word) (rest : List (Option Command)),
    s.RegReady → s.host = some (.rt we a sz v) :: rest → s.cfg.base ≤ a → a < s.cfg.base + 0x10 →
    sz ≠ 4 ∨ a - s.cfg.base ∉ [0x0, 0x4, 0x8, 0xC] →
      step s = .next { s with host := rest, resp := none, faultAccess := true }

/-- 42_register_adapter R181: with `csb = 1` no register write starts an engine operation. -/
def Obligations.DisabledChipSelectStartsNothing : Prop :=
  ∀ (s : State) (v : Word), s.RegReady → s.ctrlV = true → s.control[0] = true →
    (∀ i ∈ [Instr.wrStatus v, .wrControl v, .wrAddress v, .wrWdata v],
      ∃ t, exec i s = .next t ∧ t.fsm = .idle ∧ t.latOp = s.latOp ∧ t.latAddr = s.latAddr ∧ t.latData = s.latData
        ∧ t.latWmask = s.latWmask ∧ t.pma = s.pma ∧ s.SameBank t)
    ∧ (∃ t, exec (.wrAddress v) s = .next t ∧ t.address = keyBits s.cfg.keyW v ∧ t.addrV = true)
    ∧ (∃ t, exec (.wrWdata v) s = .next t ∧ t.wdata = v ∧ t.dataV = true)
    ∧ (∃ t, exec .rdStatus s = .next t ∧ t.fsm = .execute ∧ t.latOp = .status)

/-- 42_register_adapter R173, R182, 40_control_engine R114: an ADDRESS write in Search mode leaves the PMA of its key; the write
has already responded, and no later cycle of the traversal gives a response. -/
def Obligations.RegisterSearchEffect : Prop :=
  ∀ (s : State) (v : Word), s.RegReady → s.QuietFor 3 → s.ctrlV = true →
    s.control[0] = false → s.control[1] = true →
      let k := keyBits s.cfg.keyW v
      ∃ t1 t2 t3, Traversal (.wrAddress v) s t1 t2 t3
          { s with
            address := k, ctrlV := false, addrV := false, dataV := false,
            latOp := .search, latAddr := k, latData := 0, latWmask := 0, matchFlags := s.sbCompare k,
            pma := priorityEncode (s.sbCompare k), res := priorityEncode (s.sbCompare k), resp := none,
            host := s.host.drop 3 }
        ∧ t1.resp = some (.reg .okay none) ∧ t2.resp = none ∧ t3.resp = none

/-- 42_register_adapter R173, R174, R184: the Write that an ADDRESS or a WDATA write completes commits the bytes CONTROL[7:4]
selects. -/
def Obligations.RegisterWriteEffect : Prop :=
  ∀ (s : State) (v : Word), s.RegReady → s.QuietFor 3 → s.ctrlV = true →
    s.control[0] = false → s.control[1] = false →
      (s.addrV = true → s.address.toNat < s.cfg.entries →
        ∃ t1 t2 t3, Traversal (.wrWdata v) s t1 t2 t3
          { s with
            value := (s.sbWrite s.address.toNat v (s.control.extractLsb' 4 4)).value,
            care := (s.sbWrite s.address.toNat v (s.control.extractLsb' 4 4)).care,
            wdata := v, ctrlV := false, addrV := false, dataV := false,
            latOp := .write, latAddr := s.address, latData := v, latWmask := s.control.extractLsb' 4 4,
            res := s.drawPma, draws := s.draws + 1, resp := none, host := s.host.drop 3 })
      ∧ (s.dataV = true → v.toNat < s.cfg.entries →
        ∃ t1 t2 t3, Traversal (.wrAddress v) s t1 t2 t3
          { s with
            value := (s.sbWrite v.toNat s.wdata (s.control.extractLsb' 4 4)).value,
            care := (s.sbWrite v.toNat s.wdata (s.control.extractLsb' 4 4)).care,
            address := keyBits s.cfg.keyW v, ctrlV := false, addrV := false, dataV := false,
            latOp := .write, latAddr := keyBits s.cfg.keyW v, latData := s.wdata,
            latWmask := s.control.extractLsb' 4 4,
            res := s.drawPma, draws := s.draws + 1, resp := none, host := s.host.drop 3 })

/-- 60_exceptions R236, 10_state R36: a faulted state has no further cycle, whatever is presented. That its step answers the
flag's own fault is the model's choice (notes/assumptions/9.md). -/
def Obligations.FaultedStateStops : Prop :=
  ∀ s : State, s.cfg.valid = true → (s.faultMisuse = true ∨ s.faultSettle = true ∨ s.faultAccess = true) →
    ∃ f, step s = .fault f ∧ ∀ i, exec i s = .fault f

/-- 60_exceptions R233: a fault flag is set only by its own cause. -/
def Obligations.FaultFlagsHaveCauses : Prop :=
  ∀ s t : State, step s = .next t →
    (t.faultMisuse = true → s.ctrlV = false ∧ s.fsm = .idle ∧
      ∃ a v, s.presented = some (.rt true a 4 v) ∧ (a = s.cfg.base + 0x8 ∨ a = s.cfg.base + 0xC))
    ∧ (t.faultSettle = true → (s.fsm ≠ .idle ∨ s.raState = .waitStatus) ∧
      ∃ we a sz v, s.presented = some (.rt we a sz v) ∧ s.cfg.base ≤ a ∧ a < s.cfg.base + 0x10)
    ∧ (t.faultAccess = true → s.fsm = .idle ∧
      ∃ we a sz v, s.presented = some (.rt we a sz v) ∧ s.cfg.base ≤ a ∧ a < s.cfg.base + 0x10
        ∧ (sz ≠ 4 ∨ a - s.cfg.base ∉ [0x0, 0x4, 0x8, 0xC]))

/-- 60_exceptions R234, 00_scope R8: a configuration that violates a constraint is refused. -/
def Obligations.BadConfigurationRefused : Prop :=
  ∀ s : State,
    ¬ (1 ≤ s.cfg.entries ∧ s.cfg.entries ≤ 2 ^ s.cfg.keyW ∧ 1 ≤ s.cfg.keyW ∧ s.cfg.keyW ≤ 28 ∧ s.cfg.base % 16 = 0
      ∧ s.cfg.peEn = true ∧ s.cfg.frontEnd ≠ .both) →
      step s = .refused .badConfiguration ∧ ∀ i, exec i s = .refused .badConfiguration

/-- 10_state R20, 43_custom_instruction and 42_register_adapter's opening lines: a command of the front end an instance does not
have is refused. This is the model's choice (notes/assumptions/10.md). -/
def Obligations.AbsentFrontEndRefused : Prop :=
  ∀ (s : State) (v opA opB : Word) (rd : Nat), s.Live →
    (s.cfg.frontEnd ≠ .ci → ∀ i ∈ [Instr.tcamWrite opA opB rd, .tcamRead opA opB rd, .tcamSearch opA opB rd,
      .tcamStatus opA opB rd], exec i s = .refused .frontEndAbsent)
    ∧ (s.cfg.frontEnd ≠ .reg → ∀ i ∈ [Instr.rdStatus, .wrStatus v, .rdControl, .wrControl v, .rdWdata, .wrWdata v, .rdAddress,
      .wrAddress v], exec i s = .refused .frontEndAbsent)

/-- 70_reset_and_hazards R265: no cycle changes a construction parameter. -/
def Obligations.ParametersNeverChange : Prop :=
  ∀ s t : State, (step s = .next t ∨ ∃ i, exec i s = .next t) → t.cfg = s.cfg

/-- 42_register_adapter R185: the transport binding has no effect on any cycle. -/
def Obligations.BindingHasNoEffect : Prop :=
  ∀ (s : State) (b : Binding), step (s.withBinding b) = Answer.map (fun t => t.withBinding b) (step s)

/-- 43_custom_instruction R211, R212: a slot changes only when the router delivers, one slot and with the engine's result. That
the response carries that result for every operation is the model's reading (notes/assumptions/16.md). -/
def Obligations.RouterWritesOneSlot : Prop :=
  ∀ s t : State, step s = .next t → ∀ x,
    (s.cfg.frontEnd = .ci ∧ s.ciState = .wait ∧ s.fsm = .response ∧ x = s.ciRd →
      Memory.find x t.slots = some (zext32 s.res) ∧ t.resp = some (.ci .okay x (some (zext32 s.res))) ∧ t.ciState = .ready)
    ∧ (¬ (s.cfg.frontEnd = .ci ∧ s.ciState = .wait ∧ s.fsm = .response ∧ x = s.ciRd) →
      Memory.find x t.slots = Memory.find x s.slots)

/-- 10_state R31, D9: no match depends on the held draw of a byte no Write has written: listing any values for the unwritten
bytes changes no hit. -/
def Obligations.HeldDrawsNeverCompared : Prop :=
  ∀ (s : State) (m : Memory) (i : Nat) (k : Key), s.BankInv →
    (∀ a b, Memory.find a s.value = some b → Memory.find a m = some b) →
      State.hit { s with value := m } i k = s.hit i k

/-- 43_custom_instruction R214: on instances with the same entries, the register-path Search and STATUS read of a key and the
TCAM.SEARCH of it deliver the same PMA. -/
def Obligations.AdaptersAgreeOnSearch : Prop :=
  ∀ (s r : State) (v opB : Word) (rd : Nat),
    s.CiReady → s.QuietFor 3 → r.RegReady → r.cfg.entries = s.cfg.entries → r.cfg.keyW = s.cfg.keyW → s.SameBank r →
    r.host = [some (.rt true (r.cfg.base + 0x4) 4 0x02), some (.rt true (r.cfg.base + 0xC) 4 v), none, none, none,
      some (.rt false r.cfg.base 4 0), none, none, none] →
      ∃ t1 t2 t3 u w p, Traversal (.tcamSearch v opB rd) s t1 t2 t3 u ∧ r.runCycles 9 = .next w
        ∧ Memory.find rd u.slots = some p ∧ w.resp = some (.reg .okay (some p)) ∧ w.pma = u.pma ∧ u.SameBank w
end

