-- ==== Sys2Proof/Laws/Bits.lean ====
section
/-! SUPPORT. The laws of the bit-field helpers: which bit of a word each byte holds, and the numbers the cut fields are. -/

namespace Sys2Proof.Machine

theorem getLsbD_byteOf (w : Word) (k j : Nat) : (byteOf w k).getLsbD j = (decide (j < 8) && w.getLsbD (8 * k + j)) := by
  simp [byteOf]

/-- Bit `j` of a word is bit `j % 8` of its byte `j / 8`. -/
theorem getLsbD_wordOf (b0 b1 b2 b3 : Byte) (j : Nat) :
    (wordOf b0 b1 b2 b3).getLsbD j =
      if j < 8 then b0.getLsbD j
      else if j < 16 then b1.getLsbD (j - 8)
      else if j < 24 then b2.getLsbD (j - 16)
      else b3.getLsbD (j - 24) := by
  unfold wordOf
  simp only [BitVec.getLsbD_append]
  by_cases h0 : j < 8
  · simp [h0]
  · by_cases h1 : j < 16
    · simp [h0, h1, show j - 8 < 8 by omega]
    · by_cases h2 : j < 24
      · simp [h0, h1, h2, show ¬ j - 8 < 8 by omega, show j - 8 - 8 = j - 16 by omega, show ¬ 8 ≤ j - 16 by omega]
      · simp [h0, h1, h2, show ¬ j - 8 < 8 by omega, show ¬ j - 8 - 8 < 8 by omega,
          show j - 8 - 8 - 8 = j - 24 by omega]

theorem getLsbD_lane (m : Mask) (k j : Nat) : (lane m k).getLsbD j = (decide (j < 8) && m.getLsbD k) := by
  unfold lane
  split
  · next h =>
    have hones : (0xFF : Byte) = BitVec.allOnes 8 := rfl
    rw [hones, BitVec.getLsbD_allOnes, h, Bool.and_true]
  · next h => simp [h]

/-- A word is the word of its bytes. -/
theorem wordOf_byteOf (w : Word) : wordOf (byteOf w 0) (byteOf w 1) (byteOf w 2) (byteOf w 3) = w := by
  apply BitVec.eq_of_getLsbD_eq
  intro j hj
  simp only [getLsbD_wordOf, getLsbD_byteOf]
  split_ifs with h0 h1 h2
  · simp [h0]
  · simp [show j - 8 < 8 by omega, show 8 + (j - 8) = j by omega]
  · simp [show j - 16 < 8 by omega, show 16 + (j - 16) = j by omega]
  · simp [show j - 24 < 8 by omega, show 24 + (j - 24) = j by omega]

/-- Words are equal when their four bytes are. -/
theorem wordOf_inj {a0 a1 a2 a3 b0 b1 b2 b3 : Byte} :
    wordOf a0 a1 a2 a3 = wordOf b0 b1 b2 b3 ↔ a0 = b0 ∧ a1 = b1 ∧ a2 = b2 ∧ a3 = b3 := by
  constructor
  · intro h
    have hb : ∀ j, (wordOf a0 a1 a2 a3).getLsbD j = (wordOf b0 b1 b2 b3).getLsbD j := fun j => by rw [h]
    simp only [getLsbD_wordOf] at hb
    refine ⟨?_, ?_, ?_, ?_⟩ <;> apply BitVec.eq_of_getLsbD_eq <;> intro j hj
    · simpa [hj] using hb j
    · simpa [show j + 8 < 16 by omega] using hb (j + 8)
    · simpa [show j + 16 < 24 by omega, show ¬ j + 16 < 16 by omega, show ¬ j + 16 < 8 by omega] using hb (j + 16)
    · simpa [show ¬ j + 24 < 24 by omega, show ¬ j + 24 < 16 by omega, show ¬ j + 24 < 8 by omega] using hb (j + 24)
  · rintro ⟨rfl, rfl, rfl, rfl⟩
    rfl

@[simp] theorem byteOf_onesWord_32 (k : Nat) (h : k < 4) : byteOf (onesWord 32) k = 0xFF := by
  interval_cases k <;> decide

theorem lowBits_toNat_lt {n : Nat} (w : Nat) (x : BitVec n) : (lowBits w x).toNat < 2 ^ w := by
  unfold lowBits
  rw [BitVec.toNat_ofNat]
  exact lt_of_le_of_lt (Nat.mod_le _ _) (Nat.mod_lt _ (Nat.two_pow_pos w))

theorem keyBits_toNat {keyW : Nat} (h : keyW ≤ 28) (v : Word) : (keyBits keyW v).toNat = v.toNat % 2 ^ keyW := by
  unfold keyBits
  rw [BitVec.toNat_ofNat]
  refine Nat.mod_eq_of_lt (lt_of_lt_of_le (Nat.mod_lt _ (Nat.two_pow_pos keyW)) ?_)
  exact Nat.pow_le_pow_right (by omega) h

theorem keyBits_toNat_lt (keyW : Nat) (v : Word) : (keyBits keyW v).toNat < 2 ^ keyW := by
  unfold keyBits
  rw [BitVec.toNat_ofNat]
  exact lt_of_le_of_lt (Nat.mod_le _ _) (Nat.mod_lt _ (Nat.two_pow_pos keyW))

/-- `clog2 n` is wide enough for `n` values. -/
theorem le_two_pow_clog2 (n : Nat) : n ≤ 2 ^ clog2 n := by
  unfold clog2
  split
  · next h => simpa using h
  · have := Nat.lt_log2_self (n := n - 1)
    omega

/-- Nothing narrower than `clog2 n` is. -/
theorem two_pow_lt_of_lt_clog2 {n k : Nat} (h : k < clog2 n) : 2 ^ k < n := by
  unfold clog2 at h
  split at h
  · omega
  · next hn =>
    have h1 : 2 ^ Nat.log2 (n - 1) ≤ n - 1 := Nat.log2_self_le (by omega)
    have h2 : 2 ^ k ≤ 2 ^ Nat.log2 (n - 1) := Nat.pow_le_pow_right (by omega) (by omega)
    omega

/-- Every entry index fits in `PMA_W` bits. -/
theorem entries_le_two_pow_pmaW (c : Config) : c.entries ≤ 2 ^ c.pmaW := by
  refine le_trans (le_two_pow_clog2 c.entries) (Nat.pow_le_pow_right (by omega) ?_)
  unfold Config.pmaW
  exact le_max_right _ _

/-- What a valid configuration satisfies (00_scope R8). -/
theorem valid_iff (c : Config) :
    c.valid = true ↔ 1 ≤ c.keyW ∧ c.keyW ≤ 28 ∧ 1 ≤ c.entries ∧ c.entries ≤ 2 ^ c.keyW ∧ c.base % 16 = 0
      ∧ c.peEn = true ∧ c.frontEnd ≠ .both := by
  simp [Config.valid, and_assoc]

/-- An entry index of a valid configuration fits in 28 bits. -/
theorem entries_le_of_valid {c : Config} (h : c.valid = true) : c.entries ≤ 2 ^ 28 := by
  obtain ⟨-, h1, -, h2, -⟩ := (valid_iff c).1 h
  exact le_trans h2 (Nat.pow_le_pow_right (by omega) h1)

end Sys2Proof.Machine
end

