-- ==== Sys2Proof/Laws/Memory.lean ====
section
/-! SUPPORT. The laws of the sorted lists: read after write, and every operation keeps the canonical form. -/

namespace Sys2Proof.Machine

variable {β : Type}

theorem Memory.find_put (a b : Nat) (v : β) (m : List (Nat × β)) :
    Memory.find b (Memory.put a v m) = if b = a then some v else Memory.find b m := by
  induction m with
  | nil => simp only [Memory.put, Memory.find, eq_comm]
  | cons x m ih =>
    obtain ⟨x, w⟩ := x
    simp only [Memory.put]
    split_ifs with h1 h2 <;> simp only [Memory.find, ih] <;> split_ifs <;> first | rfl | omega

theorem Memory.find_eq_none_of_lt (a : Nat) (m : List (Nat × β)) (h : ∀ x ∈ m, a < x.1) :
    Memory.find a m = none := by
  induction m with
  | nil => rfl
  | cons x m ih =>
    have hx := h x (by simp)
    simp only [Memory.find]
    rw [if_neg (by omega)]
    exact ih fun y hy => h y (by simp [hy])

theorem Memory.find_erase (a b : Nat) (m : List (Nat × β)) (hm : Memory.Sorted m) :
    Memory.find b (Memory.erase a m) = if b = a then none else Memory.find b m := by
  induction m with
  | nil => simp [Memory.erase, Memory.find]
  | cons x m ih =>
    obtain ⟨hx, hm'⟩ := List.pairwise_cons.1 hm
    obtain ⟨x, w⟩ := x
    simp only [Memory.erase]
    by_cases h1 : x = a
    · subst h1
      rw [if_pos rfl]
      by_cases h2 : b = x
      · subst h2
        rw [if_pos rfl]
        exact Memory.find_eq_none_of_lt _ _ hx
      · simp only [Memory.find, if_neg h2, if_neg (Ne.symm h2)]
    · simp only [if_neg h1, Memory.find, ih hm']
      split_ifs <;> first | rfl | omega

theorem Memory.mem_put {a : Nat} {v : β} {m : List (Nat × β)} {x : Nat × β} (h : x ∈ Memory.put a v m) :
    x = (a, v) ∨ x ∈ m := by
  induction m with
  | nil => simpa [Memory.put] using h
  | cons y m ih =>
    simp only [Memory.put] at h
    split_ifs at h <;> simp only [List.mem_cons] at h ⊢ <;> tauto

theorem Memory.mem_erase {a : Nat} {m : List (Nat × β)} {x : Nat × β} (h : x ∈ Memory.erase a m) : x ∈ m := by
  induction m with
  | nil => exact h
  | cons y m ih =>
    simp only [Memory.erase] at h
    split_ifs at h <;> simp only [List.mem_cons] at h ⊢ <;> tauto

theorem Memory.sorted_put (a : Nat) (v : β) (m : List (Nat × β)) (hm : Memory.Sorted m) :
    Memory.Sorted (Memory.put a v m) := by
  induction m with
  | nil => simp [Memory.put, Memory.Sorted]
  | cons x m ih =>
    obtain ⟨hx, hm'⟩ := List.pairwise_cons.1 hm
    simp only [Memory.put]
    split_ifs with h1 h2
    · refine List.pairwise_cons.2 ⟨fun y hy => ?_, hm⟩
      rcases List.mem_cons.1 hy with rfl | hy
      · exact h1
      · exact lt_trans h1 (hx y hy)
    · refine List.pairwise_cons.2 ⟨fun y hy => ?_, hm'⟩
      have := hx y hy
      simp only at this ⊢
      omega
    · refine List.pairwise_cons.2 ⟨fun y hy => ?_, ih hm'⟩
      rcases Memory.mem_put hy with rfl | hy
      · simp only
        omega
      · exact hx y hy

theorem Memory.sorted_erase (a : Nat) (m : List (Nat × β)) (hm : Memory.Sorted m) :
    Memory.Sorted (Memory.erase a m) := by
  induction m with
  | nil => exact hm
  | cons x m ih =>
    obtain ⟨hx, hm'⟩ := List.pairwise_cons.1 hm
    simp only [Memory.erase]
    split_ifs
    · exact hm'
    · exact List.pairwise_cons.2 ⟨fun y hy => hx y (Memory.mem_erase hy), ih hm'⟩

/-- A listed entry is what its address finds. -/
theorem Memory.find_of_mem {m : List (Nat × β)} (hm : Memory.Sorted m) {x : Nat × β} (h : x ∈ m) :
    Memory.find x.1 m = some x.2 := by
  induction m with
  | nil => simp at h
  | cons y m ih =>
    obtain ⟨hy, hm'⟩ := List.pairwise_cons.1 hm
    rcases List.mem_cons.1 h with rfl | h
    · simp [Memory.find]
    · have := hy x h
      simp only [Memory.find]
      rw [if_neg (by omega)]
      exact ih hm' h

/-- What an address finds is listed. -/
theorem Memory.mem_of_find {m : List (Nat × β)} {a : Nat} {v : β} (h : Memory.find a m = some v) : (a, v) ∈ m := by
  induction m with
  | nil => simp [Memory.find] at h
  | cons y m ih =>
    obtain ⟨y, w⟩ := y
    simp only [Memory.find] at h
    split_ifs at h with h1
    · simp_all
    · exact List.mem_cons_of_mem _ (ih h)

/-- Every write keeps the canonical form. -/
theorem Memory.wf_write (blank : Option Byte) (a : Nat) (b : Byte) (m : Memory) (hm : Memory.wf blank m) :
    Memory.wf blank (Memory.write blank a b m) := by
  unfold Memory.write
  split_ifs with h
  · exact ⟨Memory.sorted_erase _ _ hm.1, fun x hx => hm.2 x (Memory.mem_erase hx)⟩
  · refine ⟨Memory.sorted_put _ _ _ hm.1, fun x hx => ?_⟩
    rcases Memory.mem_put hx with rfl | hx
    · exact h
    · exact hm.2 x hx

/-- The empty memory of reset is canonical. -/
theorem Memory.wf_nil (blank : Option Byte) : Memory.wf blank [] := by simp [Memory.wf, Memory.Sorted]

/-- A byte that is not the blank one reads back, and no other address changes. -/
theorem Memory.find_write (blank : Option Byte) (a c : Nat) (b : Byte) (m : Memory) (h : some b ≠ blank) :
    Memory.find c (Memory.write blank a b m) = if c = a then some b else Memory.find c m := by
  rw [Memory.write, if_neg h, Memory.find_put]

/-- Canonical memories that read alike are the same list. -/
theorem Memory.ext_of_find {m n : List (Nat × β)} (hm : Memory.Sorted m) (hn : Memory.Sorted n)
    (h : ∀ a, Memory.find a m = Memory.find a n) : m = n := by
  induction m generalizing n with
  | nil =>
    cases n with
    | nil => rfl
    | cons y n => simpa [Memory.find] using h y.1
  | cons x m ih =>
    obtain ⟨hx, hm'⟩ := List.pairwise_cons.1 hm
    cases n with
    | nil => simpa [Memory.find] using h x.1
    | cons y n =>
      obtain ⟨hy, hn'⟩ := List.pairwise_cons.1 hn
      have hxn := h x.1
      have hyn := h y.1
      rw [Memory.find_of_mem hm (x := x) (by simp)] at hxn
      rw [Memory.find_of_mem hn (x := y) (by simp)] at hyn
      have h1 : x.1 = y.1 := by
        rcases lt_trichotomy x.1 y.1 with hlt | heq | hgt
        · rw [Memory.find_eq_none_of_lt x.1 (y :: n)] at hxn
          · simp at hxn
          · intro z hz
            rcases List.mem_cons.1 hz with rfl | hz
            · exact hlt
            · exact lt_trans hlt (hy z hz)
        · exact heq
        · rw [Memory.find_eq_none_of_lt y.1 (x :: m)] at hyn
          · simp at hyn
          · intro z hz
            rcases List.mem_cons.1 hz with rfl | hz
            · exact hgt
            · exact lt_trans hgt (hx z hz)
      have h2 : x = y := by
        refine Prod.ext h1 ?_
        rw [h1, Memory.find_of_mem hn (x := y) (by simp)] at hxn
        exact Option.some.inj hxn
      subst h2
      congr 1
      refine ih hm' hn' fun a => ?_
      by_cases ha : a = x.1
      · subst ha
        rw [Memory.find_eq_none_of_lt _ _ hx, Memory.find_eq_none_of_lt _ _ hy]
      · have := h a
        simpa [Memory.find, Ne.symm ha] using this

end Sys2Proof.Machine
end

