-- ==== Sys2Proof/Laws/State.lean ====
section
/-! SUPPORT. What each named update leaves in each field of the state: one lemma per field per update, true by definition. -/

namespace Sys2Proof.Machine

@[simp] theorem State.armControl_cfg (s : State) : s.armControl.cfg = s.cfg := rfl
@[simp] theorem State.armControl_fsm (s : State) : s.armControl.fsm = s.fsm := rfl
@[simp] theorem State.armControl_latOp (s : State) : s.armControl.latOp = s.latOp := rfl
@[simp] theorem State.armControl_latAddr (s : State) : s.armControl.latAddr = s.latAddr := rfl
@[simp] theorem State.armControl_latData (s : State) : s.armControl.latData = s.latData := rfl
@[simp] theorem State.armControl_latWmask (s : State) : s.armControl.latWmask = s.latWmask := rfl
@[simp] theorem State.armControl_matchFlags (s : State) : s.armControl.matchFlags = s.matchFlags := rfl
@[simp] theorem State.armControl_pma (s : State) : s.armControl.pma = s.pma := rfl
@[simp] theorem State.armControl_res (s : State) : s.armControl.res = s.res := rfl
@[simp] theorem State.armControl_value (s : State) : s.armControl.value = s.value := rfl
@[simp] theorem State.armControl_care (s : State) : s.armControl.care = s.care := rfl
@[simp] theorem State.armControl_control (s : State) : s.armControl.control = s.control := rfl
@[simp] theorem State.armControl_wdata (s : State) : s.armControl.wdata = s.wdata := rfl
@[simp] theorem State.armControl_address (s : State) : s.armControl.address = s.address := rfl
@[simp] theorem State.armControl_ctrlV (s : State) : s.armControl.ctrlV = true := rfl
@[simp] theorem State.armControl_addrV (s : State) : s.armControl.addrV = false := rfl
@[simp] theorem State.armControl_dataV (s : State) : s.armControl.dataV = false := rfl
@[simp] theorem State.armControl_raState (s : State) : s.armControl.raState = s.raState := rfl
@[simp] theorem State.armControl_ciState (s : State) : s.armControl.ciState = s.ciState := rfl
@[simp] theorem State.armControl_ciRd (s : State) : s.armControl.ciRd = s.ciRd := rfl
@[simp] theorem State.armControl_faultMisuse (s : State) : s.armControl.faultMisuse = s.faultMisuse := rfl
@[simp] theorem State.armControl_faultSettle (s : State) : s.armControl.faultSettle = s.faultSettle := rfl
@[simp] theorem State.armControl_faultAccess (s : State) : s.armControl.faultAccess = s.faultAccess := rfl
@[simp] theorem State.armControl_slots (s : State) : s.armControl.slots = s.slots := rfl
@[simp] theorem State.armControl_resp (s : State) : s.armControl.resp = s.resp := rfl
@[simp] theorem State.armControl_host (s : State) : s.armControl.host = s.host := rfl
@[simp] theorem State.armControl_draws (s : State) : s.armControl.draws = s.draws := rfl

@[simp] theorem State.clearPresence_cfg (s : State) : s.clearPresence.cfg = s.cfg := rfl
@[simp] theorem State.clearPresence_fsm (s : State) : s.clearPresence.fsm = s.fsm := rfl
@[simp] theorem State.clearPresence_latOp (s : State) : s.clearPresence.latOp = s.latOp := rfl
@[simp] theorem State.clearPresence_latAddr (s : State) : s.clearPresence.latAddr = s.latAddr := rfl
@[simp] theorem State.clearPresence_latData (s : State) : s.clearPresence.latData = s.latData := rfl
@[simp] theorem State.clearPresence_latWmask (s : State) : s.clearPresence.latWmask = s.latWmask := rfl
@[simp] theorem State.clearPresence_matchFlags (s : State) : s.clearPresence.matchFlags = s.matchFlags := rfl
@[simp] theorem State.clearPresence_pma (s : State) : s.clearPresence.pma = s.pma := rfl
@[simp] theorem State.clearPresence_res (s : State) : s.clearPresence.res = s.res := rfl
@[simp] theorem State.clearPresence_value (s : State) : s.clearPresence.value = s.value := rfl
@[simp] theorem State.clearPresence_care (s : State) : s.clearPresence.care = s.care := rfl
@[simp] theorem State.clearPresence_control (s : State) : s.clearPresence.control = s.control := rfl
@[simp] theorem State.clearPresence_wdata (s : State) : s.clearPresence.wdata = s.wdata := rfl
@[simp] theorem State.clearPresence_address (s : State) : s.clearPresence.address = s.address := rfl
@[simp] theorem State.clearPresence_ctrlV (s : State) : s.clearPresence.ctrlV = false := rfl
@[simp] theorem State.clearPresence_addrV (s : State) : s.clearPresence.addrV = false := rfl
@[simp] theorem State.clearPresence_dataV (s : State) : s.clearPresence.dataV = false := rfl
@[simp] theorem State.clearPresence_raState (s : State) : s.clearPresence.raState = s.raState := rfl
@[simp] theorem State.clearPresence_ciState (s : State) : s.clearPresence.ciState = s.ciState := rfl
@[simp] theorem State.clearPresence_ciRd (s : State) : s.clearPresence.ciRd = s.ciRd := rfl
@[simp] theorem State.clearPresence_faultMisuse (s : State) : s.clearPresence.faultMisuse = s.faultMisuse := rfl
@[simp] theorem State.clearPresence_faultSettle (s : State) : s.clearPresence.faultSettle = s.faultSettle := rfl
@[simp] theorem State.clearPresence_faultAccess (s : State) : s.clearPresence.faultAccess = s.faultAccess := rfl
@[simp] theorem State.clearPresence_slots (s : State) : s.clearPresence.slots = s.slots := rfl
@[simp] theorem State.clearPresence_resp (s : State) : s.clearPresence.resp = s.resp := rfl
@[simp] theorem State.clearPresence_host (s : State) : s.clearPresence.host = s.host := rfl
@[simp] theorem State.clearPresence_draws (s : State) : s.clearPresence.draws = s.draws := rfl

@[simp] theorem State.drawn_cfg (s : State) : s.drawn.cfg = s.cfg := rfl
@[simp] theorem State.drawn_fsm (s : State) : s.drawn.fsm = s.fsm := rfl
@[simp] theorem State.drawn_latOp (s : State) : s.drawn.latOp = s.latOp := rfl
@[simp] theorem State.drawn_latAddr (s : State) : s.drawn.latAddr = s.latAddr := rfl
@[simp] theorem State.drawn_latData (s : State) : s.drawn.latData = s.latData := rfl
@[simp] theorem State.drawn_latWmask (s : State) : s.drawn.latWmask = s.latWmask := rfl
@[simp] theorem State.drawn_matchFlags (s : State) : s.drawn.matchFlags = s.matchFlags := rfl
@[simp] theorem State.drawn_pma (s : State) : s.drawn.pma = s.pma := rfl
@[simp] theorem State.drawn_res (s : State) : s.drawn.res = s.res := rfl
@[simp] theorem State.drawn_value (s : State) : s.drawn.value = s.value := rfl
@[simp] theorem State.drawn_care (s : State) : s.drawn.care = s.care := rfl
@[simp] theorem State.drawn_control (s : State) : s.drawn.control = s.control := rfl
@[simp] theorem State.drawn_wdata (s : State) : s.drawn.wdata = s.wdata := rfl
@[simp] theorem State.drawn_address (s : State) : s.drawn.address = s.address := rfl
@[simp] theorem State.drawn_ctrlV (s : State) : s.drawn.ctrlV = s.ctrlV := rfl
@[simp] theorem State.drawn_addrV (s : State) : s.drawn.addrV = s.addrV := rfl
@[simp] theorem State.drawn_dataV (s : State) : s.drawn.dataV = s.dataV := rfl
@[simp] theorem State.drawn_raState (s : State) : s.drawn.raState = s.raState := rfl
@[simp] theorem State.drawn_ciState (s : State) : s.drawn.ciState = s.ciState := rfl
@[simp] theorem State.drawn_ciRd (s : State) : s.drawn.ciRd = s.ciRd := rfl
@[simp] theorem State.drawn_faultMisuse (s : State) : s.drawn.faultMisuse = s.faultMisuse := rfl
@[simp] theorem State.drawn_faultSettle (s : State) : s.drawn.faultSettle = s.faultSettle := rfl
@[simp] theorem State.drawn_faultAccess (s : State) : s.drawn.faultAccess = s.faultAccess := rfl
@[simp] theorem State.drawn_slots (s : State) : s.drawn.slots = s.slots := rfl
@[simp] theorem State.drawn_resp (s : State) : s.drawn.resp = s.resp := rfl
@[simp] theorem State.drawn_host (s : State) : s.drawn.host = s.host := rfl
@[simp] theorem State.drawn_draws (s : State) : s.drawn.draws = s.draws + 1 := rfl

@[simp] theorem State.latch_cfg (s : State) (r : Request) : (s.latch r).cfg = s.cfg := rfl
@[simp] theorem State.latch_fsm (s : State) (r : Request) : (s.latch r).fsm = .execute := rfl
@[simp] theorem State.latch_latOp (s : State) (r : Request) : (s.latch r).latOp = r.op := rfl
@[simp] theorem State.latch_latAddr (s : State) (r : Request) : (s.latch r).latAddr = r.addr := rfl
@[simp] theorem State.latch_latData (s : State) (r : Request) : (s.latch r).latData = r.data := rfl
@[simp] theorem State.latch_latWmask (s : State) (r : Request) : (s.latch r).latWmask = r.wmask := rfl
@[simp] theorem State.latch_matchFlags (s : State) (r : Request) : (s.latch r).matchFlags = s.matchFlags := rfl
@[simp] theorem State.latch_pma (s : State) (r : Request) : (s.latch r).pma = s.pma := rfl
@[simp] theorem State.latch_res (s : State) (r : Request) : (s.latch r).res = s.res := rfl
@[simp] theorem State.latch_value (s : State) (r : Request) : (s.latch r).value = s.value := rfl
@[simp] theorem State.latch_care (s : State) (r : Request) : (s.latch r).care = s.care := rfl
@[simp] theorem State.latch_control (s : State) (r : Request) : (s.latch r).control = s.control := rfl
@[simp] theorem State.latch_wdata (s : State) (r : Request) : (s.latch r).wdata = s.wdata := rfl
@[simp] theorem State.latch_address (s : State) (r : Request) : (s.latch r).address = s.address := rfl
@[simp] theorem State.latch_ctrlV (s : State) (r : Request) : (s.latch r).ctrlV = s.ctrlV := rfl
@[simp] theorem State.latch_addrV (s : State) (r : Request) : (s.latch r).addrV = s.addrV := rfl
@[simp] theorem State.latch_dataV (s : State) (r : Request) : (s.latch r).dataV = s.dataV := rfl
@[simp] theorem State.latch_raState (s : State) (r : Request) : (s.latch r).raState = s.raState := rfl
@[simp] theorem State.latch_ciState (s : State) (r : Request) : (s.latch r).ciState = s.ciState := rfl
@[simp] theorem State.latch_ciRd (s : State) (r : Request) : (s.latch r).ciRd = s.ciRd := rfl
@[simp] theorem State.latch_faultMisuse (s : State) (r : Request) : (s.latch r).faultMisuse = s.faultMisuse := rfl
@[simp] theorem State.latch_faultSettle (s : State) (r : Request) : (s.latch r).faultSettle = s.faultSettle := rfl
@[simp] theorem State.latch_faultAccess (s : State) (r : Request) : (s.latch r).faultAccess = s.faultAccess := rfl
@[simp] theorem State.latch_slots (s : State) (r : Request) : (s.latch r).slots = s.slots := rfl
@[simp] theorem State.latch_resp (s : State) (r : Request) : (s.latch r).resp = s.resp := rfl
@[simp] theorem State.latch_host (s : State) (r : Request) : (s.latch r).host = s.host := rfl
@[simp] theorem State.latch_draws (s : State) (r : Request) : (s.latch r).draws = s.draws := rfl

@[simp] theorem State.respond_cfg (s : State) (r : Response) : (s.respond r).cfg = s.cfg := rfl
@[simp] theorem State.respond_fsm (s : State) (r : Response) : (s.respond r).fsm = s.fsm := rfl
@[simp] theorem State.respond_latOp (s : State) (r : Response) : (s.respond r).latOp = s.latOp := rfl
@[simp] theorem State.respond_latAddr (s : State) (r : Response) : (s.respond r).latAddr = s.latAddr := rfl
@[simp] theorem State.respond_latData (s : State) (r : Response) : (s.respond r).latData = s.latData := rfl
@[simp] theorem State.respond_latWmask (s : State) (r : Response) : (s.respond r).latWmask = s.latWmask := rfl
@[simp] theorem State.respond_matchFlags (s : State) (r : Response) : (s.respond r).matchFlags = s.matchFlags := rfl
@[simp] theorem State.respond_pma (s : State) (r : Response) : (s.respond r).pma = s.pma := rfl
@[simp] theorem State.respond_res (s : State) (r : Response) : (s.respond r).res = s.res := rfl
@[simp] theorem State.respond_value (s : State) (r : Response) : (s.respond r).value = s.value := rfl
@[simp] theorem State.respond_care (s : State) (r : Response) : (s.respond r).care = s.care := rfl
@[simp] theorem State.respond_control (s : State) (r : Response) : (s.respond r).control = s.control := rfl
@[simp] theorem State.respond_wdata (s : State) (r : Response) : (s.respond r).wdata = s.wdata := rfl
@[simp] theorem State.respond_address (s : State) (r : Response) : (s.respond r).address = s.address := rfl
@[simp] theorem State.respond_ctrlV (s : State) (r : Response) : (s.respond r).ctrlV = s.ctrlV := rfl
@[simp] theorem State.respond_addrV (s : State) (r : Response) : (s.respond r).addrV = s.addrV := rfl
@[simp] theorem State.respond_dataV (s : State) (r : Response) : (s.respond r).dataV = s.dataV := rfl
@[simp] theorem State.respond_raState (s : State) (r : Response) : (s.respond r).raState = s.raState := rfl
@[simp] theorem State.respond_ciState (s : State) (r : Response) : (s.respond r).ciState = s.ciState := rfl
@[simp] theorem State.respond_ciRd (s : State) (r : Response) : (s.respond r).ciRd = s.ciRd := rfl
@[simp] theorem State.respond_faultMisuse (s : State) (r : Response) : (s.respond r).faultMisuse = s.faultMisuse := rfl
@[simp] theorem State.respond_faultSettle (s : State) (r : Response) : (s.respond r).faultSettle = s.faultSettle := rfl
@[simp] theorem State.respond_faultAccess (s : State) (r : Response) : (s.respond r).faultAccess = s.faultAccess := rfl
@[simp] theorem State.respond_slots (s : State) (r : Response) : (s.respond r).slots = s.slots := rfl
@[simp] theorem State.respond_resp (s : State) (r : Response) : (s.respond r).resp = some r := rfl
@[simp] theorem State.respond_host (s : State) (r : Response) : (s.respond r).host = s.host := rfl
@[simp] theorem State.respond_draws (s : State) (r : Response) : (s.respond r).draws = s.draws := rfl

@[simp] theorem State.quiet_cfg (s : State) : s.quiet.cfg = s.cfg := rfl
@[simp] theorem State.quiet_fsm (s : State) : s.quiet.fsm = s.fsm := rfl
@[simp] theorem State.quiet_latOp (s : State) : s.quiet.latOp = s.latOp := rfl
@[simp] theorem State.quiet_latAddr (s : State) : s.quiet.latAddr = s.latAddr := rfl
@[simp] theorem State.quiet_latData (s : State) : s.quiet.latData = s.latData := rfl
@[simp] theorem State.quiet_latWmask (s : State) : s.quiet.latWmask = s.latWmask := rfl
@[simp] theorem State.quiet_matchFlags (s : State) : s.quiet.matchFlags = s.matchFlags := rfl
@[simp] theorem State.quiet_pma (s : State) : s.quiet.pma = s.pma := rfl
@[simp] theorem State.quiet_res (s : State) : s.quiet.res = s.res := rfl
@[simp] theorem State.quiet_value (s : State) : s.quiet.value = s.value := rfl
@[simp] theorem State.quiet_care (s : State) : s.quiet.care = s.care := rfl
@[simp] theorem State.quiet_control (s : State) : s.quiet.control = s.control := rfl
@[simp] theorem State.quiet_wdata (s : State) : s.quiet.wdata = s.wdata := rfl
@[simp] theorem State.quiet_address (s : State) : s.quiet.address = s.address := rfl
@[simp] theorem State.quiet_ctrlV (s : State) : s.quiet.ctrlV = s.ctrlV := rfl
@[simp] theorem State.quiet_addrV (s : State) : s.quiet.addrV = s.addrV := rfl
@[simp] theorem State.quiet_dataV (s : State) : s.quiet.dataV = s.dataV := rfl
@[simp] theorem State.quiet_raState (s : State) : s.quiet.raState = s.raState := rfl
@[simp] theorem State.quiet_ciState (s : State) : s.quiet.ciState = s.ciState := rfl
@[simp] theorem State.quiet_ciRd (s : State) : s.quiet.ciRd = s.ciRd := rfl
@[simp] theorem State.quiet_faultMisuse (s : State) : s.quiet.faultMisuse = s.faultMisuse := rfl
@[simp] theorem State.quiet_faultSettle (s : State) : s.quiet.faultSettle = s.faultSettle := rfl
@[simp] theorem State.quiet_faultAccess (s : State) : s.quiet.faultAccess = s.faultAccess := rfl
@[simp] theorem State.quiet_slots (s : State) : s.quiet.slots = s.slots := rfl
@[simp] theorem State.quiet_resp (s : State) : s.quiet.resp = none := rfl
@[simp] theorem State.quiet_host (s : State) : s.quiet.host = s.host := rfl
@[simp] theorem State.quiet_draws (s : State) : s.quiet.draws = s.draws := rfl

@[simp] theorem State.hold_cfg (s : State) (c : Command) : (s.hold c).cfg = s.cfg := rfl
@[simp] theorem State.hold_fsm (s : State) (c : Command) : (s.hold c).fsm = s.fsm := rfl
@[simp] theorem State.hold_latOp (s : State) (c : Command) : (s.hold c).latOp = s.latOp := rfl
@[simp] theorem State.hold_latAddr (s : State) (c : Command) : (s.hold c).latAddr = s.latAddr := rfl
@[simp] theorem State.hold_latData (s : State) (c : Command) : (s.hold c).latData = s.latData := rfl
@[simp] theorem State.hold_latWmask (s : State) (c : Command) : (s.hold c).latWmask = s.latWmask := rfl
@[simp] theorem State.hold_matchFlags (s : State) (c : Command) : (s.hold c).matchFlags = s.matchFlags := rfl
@[simp] theorem State.hold_pma (s : State) (c : Command) : (s.hold c).pma = s.pma := rfl
@[simp] theorem State.hold_res (s : State) (c : Command) : (s.hold c).res = s.res := rfl
@[simp] theorem State.hold_value (s : State) (c : Command) : (s.hold c).value = s.value := rfl
@[simp] theorem State.hold_care (s : State) (c : Command) : (s.hold c).care = s.care := rfl
@[simp] theorem State.hold_control (s : State) (c : Command) : (s.hold c).control = s.control := rfl
@[simp] theorem State.hold_wdata (s : State) (c : Command) : (s.hold c).wdata = s.wdata := rfl
@[simp] theorem State.hold_address (s : State) (c : Command) : (s.hold c).address = s.address := rfl
@[simp] theorem State.hold_ctrlV (s : State) (c : Command) : (s.hold c).ctrlV = s.ctrlV := rfl
@[simp] theorem State.hold_addrV (s : State) (c : Command) : (s.hold c).addrV = s.addrV := rfl
@[simp] theorem State.hold_dataV (s : State) (c : Command) : (s.hold c).dataV = s.dataV := rfl
@[simp] theorem State.hold_raState (s : State) (c : Command) : (s.hold c).raState = s.raState := rfl
@[simp] theorem State.hold_ciState (s : State) (c : Command) : (s.hold c).ciState = s.ciState := rfl
@[simp] theorem State.hold_ciRd (s : State) (c : Command) : (s.hold c).ciRd = s.ciRd := rfl
@[simp] theorem State.hold_faultMisuse (s : State) (c : Command) : (s.hold c).faultMisuse = s.faultMisuse := rfl
@[simp] theorem State.hold_faultSettle (s : State) (c : Command) : (s.hold c).faultSettle = s.faultSettle := rfl
@[simp] theorem State.hold_faultAccess (s : State) (c : Command) : (s.hold c).faultAccess = s.faultAccess := rfl
@[simp] theorem State.hold_slots (s : State) (c : Command) : (s.hold c).slots = s.slots := rfl
@[simp] theorem State.hold_resp (s : State) (c : Command) : (s.hold c).resp = s.resp := rfl
@[simp] theorem State.hold_host (s : State) (c : Command) : (s.hold c).host = some c :: s.host := rfl
@[simp] theorem State.hold_draws (s : State) (c : Command) : (s.hold c).draws = s.draws := rfl

@[simp] theorem State.advance_cfg (s : State) : s.advance.cfg = s.cfg := rfl
@[simp] theorem State.advance_fsm (s : State) : s.advance.fsm = s.fsm := rfl
@[simp] theorem State.advance_latOp (s : State) : s.advance.latOp = s.latOp := rfl
@[simp] theorem State.advance_latAddr (s : State) : s.advance.latAddr = s.latAddr := rfl
@[simp] theorem State.advance_latData (s : State) : s.advance.latData = s.latData := rfl
@[simp] theorem State.advance_latWmask (s : State) : s.advance.latWmask = s.latWmask := rfl
@[simp] theorem State.advance_matchFlags (s : State) : s.advance.matchFlags = s.matchFlags := rfl
@[simp] theorem State.advance_pma (s : State) : s.advance.pma = s.pma := rfl
@[simp] theorem State.advance_res (s : State) : s.advance.res = s.res := rfl
@[simp] theorem State.advance_value (s : State) : s.advance.value = s.value := rfl
@[simp] theorem State.advance_care (s : State) : s.advance.care = s.care := rfl
@[simp] theorem State.advance_control (s : State) : s.advance.control = s.control := rfl
@[simp] theorem State.advance_wdata (s : State) : s.advance.wdata = s.wdata := rfl
@[simp] theorem State.advance_address (s : State) : s.advance.address = s.address := rfl
@[simp] theorem State.advance_ctrlV (s : State) : s.advance.ctrlV = s.ctrlV := rfl
@[simp] theorem State.advance_addrV (s : State) : s.advance.addrV = s.addrV := rfl
@[simp] theorem State.advance_dataV (s : State) : s.advance.dataV = s.dataV := rfl
@[simp] theorem State.advance_raState (s : State) : s.advance.raState = s.raState := rfl
@[simp] theorem State.advance_ciState (s : State) : s.advance.ciState = s.ciState := rfl
@[simp] theorem State.advance_ciRd (s : State) : s.advance.ciRd = s.ciRd := rfl
@[simp] theorem State.advance_faultMisuse (s : State) : s.advance.faultMisuse = s.faultMisuse := rfl
@[simp] theorem State.advance_faultSettle (s : State) : s.advance.faultSettle = s.faultSettle := rfl
@[simp] theorem State.advance_faultAccess (s : State) : s.advance.faultAccess = s.faultAccess := rfl
@[simp] theorem State.advance_slots (s : State) : s.advance.slots = s.slots := rfl
@[simp] theorem State.advance_resp (s : State) : s.advance.resp = s.resp := rfl
@[simp] theorem State.advance_host (s : State) : s.advance.host = s.host.tail := rfl
@[simp] theorem State.advance_draws (s : State) : s.advance.draws = s.draws := rfl

@[simp] theorem State.sbWrite_cfg (s : State) (i : Nat) (d : Word) (m : Mask) : (s.sbWrite i d m).cfg = s.cfg := rfl
@[simp] theorem State.sbWrite_fsm (s : State) (i : Nat) (d : Word) (m : Mask) : (s.sbWrite i d m).fsm = s.fsm := rfl
@[simp] theorem State.sbWrite_latOp (s : State) (i : Nat) (d : Word) (m : Mask) : (s.sbWrite i d m).latOp = s.latOp := rfl
@[simp] theorem State.sbWrite_latAddr (s : State) (i : Nat) (d : Word) (m : Mask) : (s.sbWrite i d m).latAddr = s.latAddr := rfl
@[simp] theorem State.sbWrite_latData (s : State) (i : Nat) (d : Word) (m : Mask) : (s.sbWrite i d m).latData = s.latData := rfl
@[simp] theorem State.sbWrite_latWmask (s : State) (i : Nat) (d : Word) (m : Mask) : (s.sbWrite i d m).latWmask = s.latWmask := rfl
@[simp] theorem State.sbWrite_matchFlags (s : State) (i : Nat) (d : Word) (m : Mask) : (s.sbWrite i d m).matchFlags = s.matchFlags := rfl
@[simp] theorem State.sbWrite_pma (s : State) (i : Nat) (d : Word) (m : Mask) : (s.sbWrite i d m).pma = s.pma := rfl
@[simp] theorem State.sbWrite_res (s : State) (i : Nat) (d : Word) (m : Mask) : (s.sbWrite i d m).res = s.res := rfl
@[simp] theorem State.sbWrite_value (s : State) (i : Nat) (d : Word) (m : Mask) : (s.sbWrite i d m).value = storeLanes Memory.valueBlank i d m s.value := rfl
@[simp] theorem State.sbWrite_care (s : State) (i : Nat) (d : Word) (m : Mask) : (s.sbWrite i d m).care = storeLanes Memory.careBlank i (onesWord 32) m s.care := rfl
@[simp] theorem State.sbWrite_control (s : State) (i : Nat) (d : Word) (m : Mask) : (s.sbWrite i d m).control = s.control := rfl
@[simp] theorem State.sbWrite_wdata (s : State) (i : Nat) (d : Word) (m : Mask) : (s.sbWrite i d m).wdata = s.wdata := rfl
@[simp] theorem State.sbWrite_address (s : State) (i : Nat) (d : Word) (m : Mask) : (s.sbWrite i d m).address = s.address := rfl
@[simp] theorem State.sbWrite_ctrlV (s : State) (i : Nat) (d : Word) (m : Mask) : (s.sbWrite i d m).ctrlV = s.ctrlV := rfl
@[simp] theorem State.sbWrite_addrV (s : State) (i : Nat) (d : Word) (m : Mask) : (s.sbWrite i d m).addrV = s.addrV := rfl
@[simp] theorem State.sbWrite_dataV (s : State) (i : Nat) (d : Word) (m : Mask) : (s.sbWrite i d m).dataV = s.dataV := rfl
@[simp] theorem State.sbWrite_raState (s : State) (i : Nat) (d : Word) (m : Mask) : (s.sbWrite i d m).raState = s.raState := rfl
@[simp] theorem State.sbWrite_ciState (s : State) (i : Nat) (d : Word) (m : Mask) : (s.sbWrite i d m).ciState = s.ciState := rfl
@[simp] theorem State.sbWrite_ciRd (s : State) (i : Nat) (d : Word) (m : Mask) : (s.sbWrite i d m).ciRd = s.ciRd := rfl
@[simp] theorem State.sbWrite_faultMisuse (s : State) (i : Nat) (d : Word) (m : Mask) : (s.sbWrite i d m).faultMisuse = s.faultMisuse := rfl
@[simp] theorem State.sbWrite_faultSettle (s : State) (i : Nat) (d : Word) (m : Mask) : (s.sbWrite i d m).faultSettle = s.faultSettle := rfl
@[simp] theorem State.sbWrite_faultAccess (s : State) (i : Nat) (d : Word) (m : Mask) : (s.sbWrite i d m).faultAccess = s.faultAccess := rfl
@[simp] theorem State.sbWrite_slots (s : State) (i : Nat) (d : Word) (m : Mask) : (s.sbWrite i d m).slots = s.slots := rfl
@[simp] theorem State.sbWrite_resp (s : State) (i : Nat) (d : Word) (m : Mask) : (s.sbWrite i d m).resp = s.resp := rfl
@[simp] theorem State.sbWrite_host (s : State) (i : Nat) (d : Word) (m : Mask) : (s.sbWrite i d m).host = s.host := rfl
@[simp] theorem State.sbWrite_draws (s : State) (i : Nat) (d : Word) (m : Mask) : (s.sbWrite i d m).draws = s.draws := rfl

@[simp] theorem State.goto_cfg (s : State) (f : Fsm) : (s.goto f).cfg = s.cfg := rfl
@[simp] theorem State.goto_fsm (s : State) (f : Fsm) : (s.goto f).fsm = f := rfl
@[simp] theorem State.goto_latOp (s : State) (f : Fsm) : (s.goto f).latOp = s.latOp := rfl
@[simp] theorem State.goto_latAddr (s : State) (f : Fsm) : (s.goto f).latAddr = s.latAddr := rfl
@[simp] theorem State.goto_latData (s : State) (f : Fsm) : (s.goto f).latData = s.latData := rfl
@[simp] theorem State.goto_latWmask (s : State) (f : Fsm) : (s.goto f).latWmask = s.latWmask := rfl
@[simp] theorem State.goto_matchFlags (s : State) (f : Fsm) : (s.goto f).matchFlags = s.matchFlags := rfl
@[simp] theorem State.goto_pma (s : State) (f : Fsm) : (s.goto f).pma = s.pma := rfl
@[simp] theorem State.goto_res (s : State) (f : Fsm) : (s.goto f).res = s.res := rfl
@[simp] theorem State.goto_value (s : State) (f : Fsm) : (s.goto f).value = s.value := rfl
@[simp] theorem State.goto_care (s : State) (f : Fsm) : (s.goto f).care = s.care := rfl
@[simp] theorem State.goto_control (s : State) (f : Fsm) : (s.goto f).control = s.control := rfl
@[simp] theorem State.goto_wdata (s : State) (f : Fsm) : (s.goto f).wdata = s.wdata := rfl
@[simp] theorem State.goto_address (s : State) (f : Fsm) : (s.goto f).address = s.address := rfl
@[simp] theorem State.goto_ctrlV (s : State) (f : Fsm) : (s.goto f).ctrlV = s.ctrlV := rfl
@[simp] theorem State.goto_addrV (s : State) (f : Fsm) : (s.goto f).addrV = s.addrV := rfl
@[simp] theorem State.goto_dataV (s : State) (f : Fsm) : (s.goto f).dataV = s.dataV := rfl
@[simp] theorem State.goto_raState (s : State) (f : Fsm) : (s.goto f).raState = s.raState := rfl
@[simp] theorem State.goto_ciState (s : State) (f : Fsm) : (s.goto f).ciState = s.ciState := rfl
@[simp] theorem State.goto_ciRd (s : State) (f : Fsm) : (s.goto f).ciRd = s.ciRd := rfl
@[simp] theorem State.goto_faultMisuse (s : State) (f : Fsm) : (s.goto f).faultMisuse = s.faultMisuse := rfl
@[simp] theorem State.goto_faultSettle (s : State) (f : Fsm) : (s.goto f).faultSettle = s.faultSettle := rfl
@[simp] theorem State.goto_faultAccess (s : State) (f : Fsm) : (s.goto f).faultAccess = s.faultAccess := rfl
@[simp] theorem State.goto_slots (s : State) (f : Fsm) : (s.goto f).slots = s.slots := rfl
@[simp] theorem State.goto_resp (s : State) (f : Fsm) : (s.goto f).resp = s.resp := rfl
@[simp] theorem State.goto_host (s : State) (f : Fsm) : (s.goto f).host = s.host := rfl
@[simp] theorem State.goto_draws (s : State) (f : Fsm) : (s.goto f).draws = s.draws := rfl

@[simp] theorem State.setMatch_cfg (s : State) (f : List Bool) : (s.setMatch f).cfg = s.cfg := rfl
@[simp] theorem State.setMatch_fsm (s : State) (f : List Bool) : (s.setMatch f).fsm = s.fsm := rfl
@[simp] theorem State.setMatch_latOp (s : State) (f : List Bool) : (s.setMatch f).latOp = s.latOp := rfl
@[simp] theorem State.setMatch_latAddr (s : State) (f : List Bool) : (s.setMatch f).latAddr = s.latAddr := rfl
@[simp] theorem State.setMatch_latData (s : State) (f : List Bool) : (s.setMatch f).latData = s.latData := rfl
@[simp] theorem State.setMatch_latWmask (s : State) (f : List Bool) : (s.setMatch f).latWmask = s.latWmask := rfl
@[simp] theorem State.setMatch_matchFlags (s : State) (f : List Bool) : (s.setMatch f).matchFlags = f := rfl
@[simp] theorem State.setMatch_pma (s : State) (f : List Bool) : (s.setMatch f).pma = s.pma := rfl
@[simp] theorem State.setMatch_res (s : State) (f : List Bool) : (s.setMatch f).res = s.res := rfl
@[simp] theorem State.setMatch_value (s : State) (f : List Bool) : (s.setMatch f).value = s.value := rfl
@[simp] theorem State.setMatch_care (s : State) (f : List Bool) : (s.setMatch f).care = s.care := rfl
@[simp] theorem State.setMatch_control (s : State) (f : List Bool) : (s.setMatch f).control = s.control := rfl
@[simp] theorem State.setMatch_wdata (s : State) (f : List Bool) : (s.setMatch f).wdata = s.wdata := rfl
@[simp] theorem State.setMatch_address (s : State) (f : List Bool) : (s.setMatch f).address = s.address := rfl
@[simp] theorem State.setMatch_ctrlV (s : State) (f : List Bool) : (s.setMatch f).ctrlV = s.ctrlV := rfl
@[simp] theorem State.setMatch_addrV (s : State) (f : List Bool) : (s.setMatch f).addrV = s.addrV := rfl
@[simp] theorem State.setMatch_dataV (s : State) (f : List Bool) : (s.setMatch f).dataV = s.dataV := rfl
@[simp] theorem State.setMatch_raState (s : State) (f : List Bool) : (s.setMatch f).raState = s.raState := rfl
@[simp] theorem State.setMatch_ciState (s : State) (f : List Bool) : (s.setMatch f).ciState = s.ciState := rfl
@[simp] theorem State.setMatch_ciRd (s : State) (f : List Bool) : (s.setMatch f).ciRd = s.ciRd := rfl
@[simp] theorem State.setMatch_faultMisuse (s : State) (f : List Bool) : (s.setMatch f).faultMisuse = s.faultMisuse := rfl
@[simp] theorem State.setMatch_faultSettle (s : State) (f : List Bool) : (s.setMatch f).faultSettle = s.faultSettle := rfl
@[simp] theorem State.setMatch_faultAccess (s : State) (f : List Bool) : (s.setMatch f).faultAccess = s.faultAccess := rfl
@[simp] theorem State.setMatch_slots (s : State) (f : List Bool) : (s.setMatch f).slots = s.slots := rfl
@[simp] theorem State.setMatch_resp (s : State) (f : List Bool) : (s.setMatch f).resp = s.resp := rfl
@[simp] theorem State.setMatch_host (s : State) (f : List Bool) : (s.setMatch f).host = s.host := rfl
@[simp] theorem State.setMatch_draws (s : State) (f : List Bool) : (s.setMatch f).draws = s.draws := rfl

@[simp] theorem State.setPma_cfg (s : State) (p : Key) : (s.setPma p).cfg = s.cfg := rfl
@[simp] theorem State.setPma_fsm (s : State) (p : Key) : (s.setPma p).fsm = s.fsm := rfl
@[simp] theorem State.setPma_latOp (s : State) (p : Key) : (s.setPma p).latOp = s.latOp := rfl
@[simp] theorem State.setPma_latAddr (s : State) (p : Key) : (s.setPma p).latAddr = s.latAddr := rfl
@[simp] theorem State.setPma_latData (s : State) (p : Key) : (s.setPma p).latData = s.latData := rfl
@[simp] theorem State.setPma_latWmask (s : State) (p : Key) : (s.setPma p).latWmask = s.latWmask := rfl
@[simp] theorem State.setPma_matchFlags (s : State) (p : Key) : (s.setPma p).matchFlags = s.matchFlags := rfl
@[simp] theorem State.setPma_pma (s : State) (p : Key) : (s.setPma p).pma = p := rfl
@[simp] theorem State.setPma_res (s : State) (p : Key) : (s.setPma p).res = s.res := rfl
@[simp] theorem State.setPma_value (s : State) (p : Key) : (s.setPma p).value = s.value := rfl
@[simp] theorem State.setPma_care (s : State) (p : Key) : (s.setPma p).care = s.care := rfl
@[simp] theorem State.setPma_control (s : State) (p : Key) : (s.setPma p).control = s.control := rfl
@[simp] theorem State.setPma_wdata (s : State) (p : Key) : (s.setPma p).wdata = s.wdata := rfl
@[simp] theorem State.setPma_address (s : State) (p : Key) : (s.setPma p).address = s.address := rfl
@[simp] theorem State.setPma_ctrlV (s : State) (p : Key) : (s.setPma p).ctrlV = s.ctrlV := rfl
@[simp] theorem State.setPma_addrV (s : State) (p : Key) : (s.setPma p).addrV = s.addrV := rfl
@[simp] theorem State.setPma_dataV (s : State) (p : Key) : (s.setPma p).dataV = s.dataV := rfl
@[simp] theorem State.setPma_raState (s : State) (p : Key) : (s.setPma p).raState = s.raState := rfl
@[simp] theorem State.setPma_ciState (s : State) (p : Key) : (s.setPma p).ciState = s.ciState := rfl
@[simp] theorem State.setPma_ciRd (s : State) (p : Key) : (s.setPma p).ciRd = s.ciRd := rfl
@[simp] theorem State.setPma_faultMisuse (s : State) (p : Key) : (s.setPma p).faultMisuse = s.faultMisuse := rfl
@[simp] theorem State.setPma_faultSettle (s : State) (p : Key) : (s.setPma p).faultSettle = s.faultSettle := rfl
@[simp] theorem State.setPma_faultAccess (s : State) (p : Key) : (s.setPma p).faultAccess = s.faultAccess := rfl
@[simp] theorem State.setPma_slots (s : State) (p : Key) : (s.setPma p).slots = s.slots := rfl
@[simp] theorem State.setPma_resp (s : State) (p : Key) : (s.setPma p).resp = s.resp := rfl
@[simp] theorem State.setPma_host (s : State) (p : Key) : (s.setPma p).host = s.host := rfl
@[simp] theorem State.setPma_draws (s : State) (p : Key) : (s.setPma p).draws = s.draws := rfl

@[simp] theorem State.setRes_cfg (s : State) (r : Key) : (s.setRes r).cfg = s.cfg := rfl
@[simp] theorem State.setRes_fsm (s : State) (r : Key) : (s.setRes r).fsm = s.fsm := rfl
@[simp] theorem State.setRes_latOp (s : State) (r : Key) : (s.setRes r).latOp = s.latOp := rfl
@[simp] theorem State.setRes_latAddr (s : State) (r : Key) : (s.setRes r).latAddr = s.latAddr := rfl
@[simp] theorem State.setRes_latData (s : State) (r : Key) : (s.setRes r).latData = s.latData := rfl
@[simp] theorem State.setRes_latWmask (s : State) (r : Key) : (s.setRes r).latWmask = s.latWmask := rfl
@[simp] theorem State.setRes_matchFlags (s : State) (r : Key) : (s.setRes r).matchFlags = s.matchFlags := rfl
@[simp] theorem State.setRes_pma (s : State) (r : Key) : (s.setRes r).pma = s.pma := rfl
@[simp] theorem State.setRes_res (s : State) (r : Key) : (s.setRes r).res = r := rfl
@[simp] theorem State.setRes_value (s : State) (r : Key) : (s.setRes r).value = s.value := rfl
@[simp] theorem State.setRes_care (s : State) (r : Key) : (s.setRes r).care = s.care := rfl
@[simp] theorem State.setRes_control (s : State) (r : Key) : (s.setRes r).control = s.control := rfl
@[simp] theorem State.setRes_wdata (s : State) (r : Key) : (s.setRes r).wdata = s.wdata := rfl
@[simp] theorem State.setRes_address (s : State) (r : Key) : (s.setRes r).address = s.address := rfl
@[simp] theorem State.setRes_ctrlV (s : State) (r : Key) : (s.setRes r).ctrlV = s.ctrlV := rfl
@[simp] theorem State.setRes_addrV (s : State) (r : Key) : (s.setRes r).addrV = s.addrV := rfl
@[simp] theorem State.setRes_dataV (s : State) (r : Key) : (s.setRes r).dataV = s.dataV := rfl
@[simp] theorem State.setRes_raState (s : State) (r : Key) : (s.setRes r).raState = s.raState := rfl
@[simp] theorem State.setRes_ciState (s : State) (r : Key) : (s.setRes r).ciState = s.ciState := rfl
@[simp] theorem State.setRes_ciRd (s : State) (r : Key) : (s.setRes r).ciRd = s.ciRd := rfl
@[simp] theorem State.setRes_faultMisuse (s : State) (r : Key) : (s.setRes r).faultMisuse = s.faultMisuse := rfl
@[simp] theorem State.setRes_faultSettle (s : State) (r : Key) : (s.setRes r).faultSettle = s.faultSettle := rfl
@[simp] theorem State.setRes_faultAccess (s : State) (r : Key) : (s.setRes r).faultAccess = s.faultAccess := rfl
@[simp] theorem State.setRes_slots (s : State) (r : Key) : (s.setRes r).slots = s.slots := rfl
@[simp] theorem State.setRes_resp (s : State) (r : Key) : (s.setRes r).resp = s.resp := rfl
@[simp] theorem State.setRes_host (s : State) (r : Key) : (s.setRes r).host = s.host := rfl
@[simp] theorem State.setRes_draws (s : State) (r : Key) : (s.setRes r).draws = s.draws := rfl

@[simp] theorem State.setControl_cfg (s : State) (c : Byte) : (s.setControl c).cfg = s.cfg := rfl
@[simp] theorem State.setControl_fsm (s : State) (c : Byte) : (s.setControl c).fsm = s.fsm := rfl
@[simp] theorem State.setControl_latOp (s : State) (c : Byte) : (s.setControl c).latOp = s.latOp := rfl
@[simp] theorem State.setControl_latAddr (s : State) (c : Byte) : (s.setControl c).latAddr = s.latAddr := rfl
@[simp] theorem State.setControl_latData (s : State) (c : Byte) : (s.setControl c).latData = s.latData := rfl
@[simp] theorem State.setControl_latWmask (s : State) (c : Byte) : (s.setControl c).latWmask = s.latWmask := rfl
@[simp] theorem State.setControl_matchFlags (s : State) (c : Byte) : (s.setControl c).matchFlags = s.matchFlags := rfl
@[simp] theorem State.setControl_pma (s : State) (c : Byte) : (s.setControl c).pma = s.pma := rfl
@[simp] theorem State.setControl_res (s : State) (c : Byte) : (s.setControl c).res = s.res := rfl
@[simp] theorem State.setControl_value (s : State) (c : Byte) : (s.setControl c).value = s.value := rfl
@[simp] theorem State.setControl_care (s : State) (c : Byte) : (s.setControl c).care = s.care := rfl
@[simp] theorem State.setControl_control (s : State) (c : Byte) : (s.setControl c).control = c := rfl
@[simp] theorem State.setControl_wdata (s : State) (c : Byte) : (s.setControl c).wdata = s.wdata := rfl
@[simp] theorem State.setControl_address (s : State) (c : Byte) : (s.setControl c).address = s.address := rfl
@[simp] theorem State.setControl_ctrlV (s : State) (c : Byte) : (s.setControl c).ctrlV = s.ctrlV := rfl
@[simp] theorem State.setControl_addrV (s : State) (c : Byte) : (s.setControl c).addrV = s.addrV := rfl
@[simp] theorem State.setControl_dataV (s : State) (c : Byte) : (s.setControl c).dataV = s.dataV := rfl
@[simp] theorem State.setControl_raState (s : State) (c : Byte) : (s.setControl c).raState = s.raState := rfl
@[simp] theorem State.setControl_ciState (s : State) (c : Byte) : (s.setControl c).ciState = s.ciState := rfl
@[simp] theorem State.setControl_ciRd (s : State) (c : Byte) : (s.setControl c).ciRd = s.ciRd := rfl
@[simp] theorem State.setControl_faultMisuse (s : State) (c : Byte) : (s.setControl c).faultMisuse = s.faultMisuse := rfl
@[simp] theorem State.setControl_faultSettle (s : State) (c : Byte) : (s.setControl c).faultSettle = s.faultSettle := rfl
@[simp] theorem State.setControl_faultAccess (s : State) (c : Byte) : (s.setControl c).faultAccess = s.faultAccess := rfl
@[simp] theorem State.setControl_slots (s : State) (c : Byte) : (s.setControl c).slots = s.slots := rfl
@[simp] theorem State.setControl_resp (s : State) (c : Byte) : (s.setControl c).resp = s.resp := rfl
@[simp] theorem State.setControl_host (s : State) (c : Byte) : (s.setControl c).host = s.host := rfl
@[simp] theorem State.setControl_draws (s : State) (c : Byte) : (s.setControl c).draws = s.draws := rfl

@[simp] theorem State.setWdata_cfg (s : State) (v : Word) : (s.setWdata v).cfg = s.cfg := rfl
@[simp] theorem State.setWdata_fsm (s : State) (v : Word) : (s.setWdata v).fsm = s.fsm := rfl
@[simp] theorem State.setWdata_latOp (s : State) (v : Word) : (s.setWdata v).latOp = s.latOp := rfl
@[simp] theorem State.setWdata_latAddr (s : State) (v : Word) : (s.setWdata v).latAddr = s.latAddr := rfl
@[simp] theorem State.setWdata_latData (s : State) (v : Word) : (s.setWdata v).latData = s.latData := rfl
@[simp] theorem State.setWdata_latWmask (s : State) (v : Word) : (s.setWdata v).latWmask = s.latWmask := rfl
@[simp] theorem State.setWdata_matchFlags (s : State) (v : Word) : (s.setWdata v).matchFlags = s.matchFlags := rfl
@[simp] theorem State.setWdata_pma (s : State) (v : Word) : (s.setWdata v).pma = s.pma := rfl
@[simp] theorem State.setWdata_res (s : State) (v : Word) : (s.setWdata v).res = s.res := rfl
@[simp] theorem State.setWdata_value (s : State) (v : Word) : (s.setWdata v).value = s.value := rfl
@[simp] theorem State.setWdata_care (s : State) (v : Word) : (s.setWdata v).care = s.care := rfl
@[simp] theorem State.setWdata_control (s : State) (v : Word) : (s.setWdata v).control = s.control := rfl
@[simp] theorem State.setWdata_wdata (s : State) (v : Word) : (s.setWdata v).wdata = v := rfl
@[simp] theorem State.setWdata_address (s : State) (v : Word) : (s.setWdata v).address = s.address := rfl
@[simp] theorem State.setWdata_ctrlV (s : State) (v : Word) : (s.setWdata v).ctrlV = s.ctrlV := rfl
@[simp] theorem State.setWdata_addrV (s : State) (v : Word) : (s.setWdata v).addrV = s.addrV := rfl
@[simp] theorem State.setWdata_dataV (s : State) (v : Word) : (s.setWdata v).dataV = s.dataV := rfl
@[simp] theorem State.setWdata_raState (s : State) (v : Word) : (s.setWdata v).raState = s.raState := rfl
@[simp] theorem State.setWdata_ciState (s : State) (v : Word) : (s.setWdata v).ciState = s.ciState := rfl
@[simp] theorem State.setWdata_ciRd (s : State) (v : Word) : (s.setWdata v).ciRd = s.ciRd := rfl
@[simp] theorem State.setWdata_faultMisuse (s : State) (v : Word) : (s.setWdata v).faultMisuse = s.faultMisuse := rfl
@[simp] theorem State.setWdata_faultSettle (s : State) (v : Word) : (s.setWdata v).faultSettle = s.faultSettle := rfl
@[simp] theorem State.setWdata_faultAccess (s : State) (v : Word) : (s.setWdata v).faultAccess = s.faultAccess := rfl
@[simp] theorem State.setWdata_slots (s : State) (v : Word) : (s.setWdata v).slots = s.slots := rfl
@[simp] theorem State.setWdata_resp (s : State) (v : Word) : (s.setWdata v).resp = s.resp := rfl
@[simp] theorem State.setWdata_host (s : State) (v : Word) : (s.setWdata v).host = s.host := rfl
@[simp] theorem State.setWdata_draws (s : State) (v : Word) : (s.setWdata v).draws = s.draws := rfl

@[simp] theorem State.setAddress_cfg (s : State) (a : Key) : (s.setAddress a).cfg = s.cfg := rfl
@[simp] theorem State.setAddress_fsm (s : State) (a : Key) : (s.setAddress a).fsm = s.fsm := rfl
@[simp] theorem State.setAddress_latOp (s : State) (a : Key) : (s.setAddress a).latOp = s.latOp := rfl
@[simp] theorem State.setAddress_latAddr (s : State) (a : Key) : (s.setAddress a).latAddr = s.latAddr := rfl
@[simp] theorem State.setAddress_latData (s : State) (a : Key) : (s.setAddress a).latData = s.latData := rfl
@[simp] theorem State.setAddress_latWmask (s : State) (a : Key) : (s.setAddress a).latWmask = s.latWmask := rfl
@[simp] theorem State.setAddress_matchFlags (s : State) (a : Key) : (s.setAddress a).matchFlags = s.matchFlags := rfl
@[simp] theorem State.setAddress_pma (s : State) (a : Key) : (s.setAddress a).pma = s.pma := rfl
@[simp] theorem State.setAddress_res (s : State) (a : Key) : (s.setAddress a).res = s.res := rfl
@[simp] theorem State.setAddress_value (s : State) (a : Key) : (s.setAddress a).value = s.value := rfl
@[simp] theorem State.setAddress_care (s : State) (a : Key) : (s.setAddress a).care = s.care := rfl
@[simp] theorem State.setAddress_control (s : State) (a : Key) : (s.setAddress a).control = s.control := rfl
@[simp] theorem State.setAddress_wdata (s : State) (a : Key) : (s.setAddress a).wdata = s.wdata := rfl
@[simp] theorem State.setAddress_address (s : State) (a : Key) : (s.setAddress a).address = a := rfl
@[simp] theorem State.setAddress_ctrlV (s : State) (a : Key) : (s.setAddress a).ctrlV = s.ctrlV := rfl
@[simp] theorem State.setAddress_addrV (s : State) (a : Key) : (s.setAddress a).addrV = s.addrV := rfl
@[simp] theorem State.setAddress_dataV (s : State) (a : Key) : (s.setAddress a).dataV = s.dataV := rfl
@[simp] theorem State.setAddress_raState (s : State) (a : Key) : (s.setAddress a).raState = s.raState := rfl
@[simp] theorem State.setAddress_ciState (s : State) (a : Key) : (s.setAddress a).ciState = s.ciState := rfl
@[simp] theorem State.setAddress_ciRd (s : State) (a : Key) : (s.setAddress a).ciRd = s.ciRd := rfl
@[simp] theorem State.setAddress_faultMisuse (s : State) (a : Key) : (s.setAddress a).faultMisuse = s.faultMisuse := rfl
@[simp] theorem State.setAddress_faultSettle (s : State) (a : Key) : (s.setAddress a).faultSettle = s.faultSettle := rfl
@[simp] theorem State.setAddress_faultAccess (s : State) (a : Key) : (s.setAddress a).faultAccess = s.faultAccess := rfl
@[simp] theorem State.setAddress_slots (s : State) (a : Key) : (s.setAddress a).slots = s.slots := rfl
@[simp] theorem State.setAddress_resp (s : State) (a : Key) : (s.setAddress a).resp = s.resp := rfl
@[simp] theorem State.setAddress_host (s : State) (a : Key) : (s.setAddress a).host = s.host := rfl
@[simp] theorem State.setAddress_draws (s : State) (a : Key) : (s.setAddress a).draws = s.draws := rfl

@[simp] theorem State.markAddress_cfg (s : State) : s.markAddress.cfg = s.cfg := rfl
@[simp] theorem State.markAddress_fsm (s : State) : s.markAddress.fsm = s.fsm := rfl
@[simp] theorem State.markAddress_latOp (s : State) : s.markAddress.latOp = s.latOp := rfl
@[simp] theorem State.markAddress_latAddr (s : State) : s.markAddress.latAddr = s.latAddr := rfl
@[simp] theorem State.markAddress_latData (s : State) : s.markAddress.latData = s.latData := rfl
@[simp] theorem State.markAddress_latWmask (s : State) : s.markAddress.latWmask = s.latWmask := rfl
@[simp] theorem State.markAddress_matchFlags (s : State) : s.markAddress.matchFlags = s.matchFlags := rfl
@[simp] theorem State.markAddress_pma (s : State) : s.markAddress.pma = s.pma := rfl
@[simp] theorem State.markAddress_res (s : State) : s.markAddress.res = s.res := rfl
@[simp] theorem State.markAddress_value (s : State) : s.markAddress.value = s.value := rfl
@[simp] theorem State.markAddress_care (s : State) : s.markAddress.care = s.care := rfl
@[simp] theorem State.markAddress_control (s : State) : s.markAddress.control = s.control := rfl
@[simp] theorem State.markAddress_wdata (s : State) : s.markAddress.wdata = s.wdata := rfl
@[simp] theorem State.markAddress_address (s : State) : s.markAddress.address = s.address := rfl
@[simp] theorem State.markAddress_ctrlV (s : State) : s.markAddress.ctrlV = s.ctrlV := rfl
@[simp] theorem State.markAddress_addrV (s : State) : s.markAddress.addrV = true := rfl
@[simp] theorem State.markAddress_dataV (s : State) : s.markAddress.dataV = s.dataV := rfl
@[simp] theorem State.markAddress_raState (s : State) : s.markAddress.raState = s.raState := rfl
@[simp] theorem State.markAddress_ciState (s : State) : s.markAddress.ciState = s.ciState := rfl
@[simp] theorem State.markAddress_ciRd (s : State) : s.markAddress.ciRd = s.ciRd := rfl
@[simp] theorem State.markAddress_faultMisuse (s : State) : s.markAddress.faultMisuse = s.faultMisuse := rfl
@[simp] theorem State.markAddress_faultSettle (s : State) : s.markAddress.faultSettle = s.faultSettle := rfl
@[simp] theorem State.markAddress_faultAccess (s : State) : s.markAddress.faultAccess = s.faultAccess := rfl
@[simp] theorem State.markAddress_slots (s : State) : s.markAddress.slots = s.slots := rfl
@[simp] theorem State.markAddress_resp (s : State) : s.markAddress.resp = s.resp := rfl
@[simp] theorem State.markAddress_host (s : State) : s.markAddress.host = s.host := rfl
@[simp] theorem State.markAddress_draws (s : State) : s.markAddress.draws = s.draws := rfl

@[simp] theorem State.markData_cfg (s : State) : s.markData.cfg = s.cfg := rfl
@[simp] theorem State.markData_fsm (s : State) : s.markData.fsm = s.fsm := rfl
@[simp] theorem State.markData_latOp (s : State) : s.markData.latOp = s.latOp := rfl
@[simp] theorem State.markData_latAddr (s : State) : s.markData.latAddr = s.latAddr := rfl
@[simp] theorem State.markData_latData (s : State) : s.markData.latData = s.latData := rfl
@[simp] theorem State.markData_latWmask (s : State) : s.markData.latWmask = s.latWmask := rfl
@[simp] theorem State.markData_matchFlags (s : State) : s.markData.matchFlags = s.matchFlags := rfl
@[simp] theorem State.markData_pma (s : State) : s.markData.pma = s.pma := rfl
@[simp] theorem State.markData_res (s : State) : s.markData.res = s.res := rfl
@[simp] theorem State.markData_value (s : State) : s.markData.value = s.value := rfl
@[simp] theorem State.markData_care (s : State) : s.markData.care = s.care := rfl
@[simp] theorem State.markData_control (s : State) : s.markData.control = s.control := rfl
@[simp] theorem State.markData_wdata (s : State) : s.markData.wdata = s.wdata := rfl
@[simp] theorem State.markData_address (s : State) : s.markData.address = s.address := rfl
@[simp] theorem State.markData_ctrlV (s : State) : s.markData.ctrlV = s.ctrlV := rfl
@[simp] theorem State.markData_addrV (s : State) : s.markData.addrV = s.addrV := rfl
@[simp] theorem State.markData_dataV (s : State) : s.markData.dataV = true := rfl
@[simp] theorem State.markData_raState (s : State) : s.markData.raState = s.raState := rfl
@[simp] theorem State.markData_ciState (s : State) : s.markData.ciState = s.ciState := rfl
@[simp] theorem State.markData_ciRd (s : State) : s.markData.ciRd = s.ciRd := rfl
@[simp] theorem State.markData_faultMisuse (s : State) : s.markData.faultMisuse = s.faultMisuse := rfl
@[simp] theorem State.markData_faultSettle (s : State) : s.markData.faultSettle = s.faultSettle := rfl
@[simp] theorem State.markData_faultAccess (s : State) : s.markData.faultAccess = s.faultAccess := rfl
@[simp] theorem State.markData_slots (s : State) : s.markData.slots = s.slots := rfl
@[simp] theorem State.markData_resp (s : State) : s.markData.resp = s.resp := rfl
@[simp] theorem State.markData_host (s : State) : s.markData.host = s.host := rfl
@[simp] theorem State.markData_draws (s : State) : s.markData.draws = s.draws := rfl

@[simp] theorem State.awaitResult_cfg (s : State) (rd : Nat) : (s.awaitResult rd).cfg = s.cfg := rfl
@[simp] theorem State.awaitResult_fsm (s : State) (rd : Nat) : (s.awaitResult rd).fsm = s.fsm := rfl
@[simp] theorem State.awaitResult_latOp (s : State) (rd : Nat) : (s.awaitResult rd).latOp = s.latOp := rfl
@[simp] theorem State.awaitResult_latAddr (s : State) (rd : Nat) : (s.awaitResult rd).latAddr = s.latAddr := rfl
@[simp] theorem State.awaitResult_latData (s : State) (rd : Nat) : (s.awaitResult rd).latData = s.latData := rfl
@[simp] theorem State.awaitResult_latWmask (s : State) (rd : Nat) : (s.awaitResult rd).latWmask = s.latWmask := rfl
@[simp] theorem State.awaitResult_matchFlags (s : State) (rd : Nat) : (s.awaitResult rd).matchFlags = s.matchFlags := rfl
@[simp] theorem State.awaitResult_pma (s : State) (rd : Nat) : (s.awaitResult rd).pma = s.pma := rfl
@[simp] theorem State.awaitResult_res (s : State) (rd : Nat) : (s.awaitResult rd).res = s.res := rfl
@[simp] theorem State.awaitResult_value (s : State) (rd : Nat) : (s.awaitResult rd).value = s.value := rfl
@[simp] theorem State.awaitResult_care (s : State) (rd : Nat) : (s.awaitResult rd).care = s.care := rfl
@[simp] theorem State.awaitResult_control (s : State) (rd : Nat) : (s.awaitResult rd).control = s.control := rfl
@[simp] theorem State.awaitResult_wdata (s : State) (rd : Nat) : (s.awaitResult rd).wdata = s.wdata := rfl
@[simp] theorem State.awaitResult_address (s : State) (rd : Nat) : (s.awaitResult rd).address = s.address := rfl
@[simp] theorem State.awaitResult_ctrlV (s : State) (rd : Nat) : (s.awaitResult rd).ctrlV = s.ctrlV := rfl
@[simp] theorem State.awaitResult_addrV (s : State) (rd : Nat) : (s.awaitResult rd).addrV = s.addrV := rfl
@[simp] theorem State.awaitResult_dataV (s : State) (rd : Nat) : (s.awaitResult rd).dataV = s.dataV := rfl
@[simp] theorem State.awaitResult_raState (s : State) (rd : Nat) : (s.awaitResult rd).raState = s.raState := rfl
@[simp] theorem State.awaitResult_ciState (s : State) (rd : Nat) : (s.awaitResult rd).ciState = .wait := rfl
@[simp] theorem State.awaitResult_ciRd (s : State) (rd : Nat) : (s.awaitResult rd).ciRd = rd := rfl
@[simp] theorem State.awaitResult_faultMisuse (s : State) (rd : Nat) : (s.awaitResult rd).faultMisuse = s.faultMisuse := rfl
@[simp] theorem State.awaitResult_faultSettle (s : State) (rd : Nat) : (s.awaitResult rd).faultSettle = s.faultSettle := rfl
@[simp] theorem State.awaitResult_faultAccess (s : State) (rd : Nat) : (s.awaitResult rd).faultAccess = s.faultAccess := rfl
@[simp] theorem State.awaitResult_slots (s : State) (rd : Nat) : (s.awaitResult rd).slots = s.slots := rfl
@[simp] theorem State.awaitResult_resp (s : State) (rd : Nat) : (s.awaitResult rd).resp = s.resp := rfl
@[simp] theorem State.awaitResult_host (s : State) (rd : Nat) : (s.awaitResult rd).host = s.host := rfl
@[simp] theorem State.awaitResult_draws (s : State) (rd : Nat) : (s.awaitResult rd).draws = s.draws := rfl

@[simp] theorem State.awaitStatus_cfg (s : State) : s.awaitStatus.cfg = s.cfg := rfl
@[simp] theorem State.awaitStatus_fsm (s : State) : s.awaitStatus.fsm = s.fsm := rfl
@[simp] theorem State.awaitStatus_latOp (s : State) : s.awaitStatus.latOp = s.latOp := rfl
@[simp] theorem State.awaitStatus_latAddr (s : State) : s.awaitStatus.latAddr = s.latAddr := rfl
@[simp] theorem State.awaitStatus_latData (s : State) : s.awaitStatus.latData = s.latData := rfl
@[simp] theorem State.awaitStatus_latWmask (s : State) : s.awaitStatus.latWmask = s.latWmask := rfl
@[simp] theorem State.awaitStatus_matchFlags (s : State) : s.awaitStatus.matchFlags = s.matchFlags := rfl
@[simp] theorem State.awaitStatus_pma (s : State) : s.awaitStatus.pma = s.pma := rfl
@[simp] theorem State.awaitStatus_res (s : State) : s.awaitStatus.res = s.res := rfl
@[simp] theorem State.awaitStatus_value (s : State) : s.awaitStatus.value = s.value := rfl
@[simp] theorem State.awaitStatus_care (s : State) : s.awaitStatus.care = s.care := rfl
@[simp] theorem State.awaitStatus_control (s : State) : s.awaitStatus.control = s.control := rfl
@[simp] theorem State.awaitStatus_wdata (s : State) : s.awaitStatus.wdata = s.wdata := rfl
@[simp] theorem State.awaitStatus_address (s : State) : s.awaitStatus.address = s.address := rfl
@[simp] theorem State.awaitStatus_ctrlV (s : State) : s.awaitStatus.ctrlV = s.ctrlV := rfl
@[simp] theorem State.awaitStatus_addrV (s : State) : s.awaitStatus.addrV = s.addrV := rfl
@[simp] theorem State.awaitStatus_dataV (s : State) : s.awaitStatus.dataV = s.dataV := rfl
@[simp] theorem State.awaitStatus_raState (s : State) : s.awaitStatus.raState = .waitStatus := rfl
@[simp] theorem State.awaitStatus_ciState (s : State) : s.awaitStatus.ciState = s.ciState := rfl
@[simp] theorem State.awaitStatus_ciRd (s : State) : s.awaitStatus.ciRd = s.ciRd := rfl
@[simp] theorem State.awaitStatus_faultMisuse (s : State) : s.awaitStatus.faultMisuse = s.faultMisuse := rfl
@[simp] theorem State.awaitStatus_faultSettle (s : State) : s.awaitStatus.faultSettle = s.faultSettle := rfl
@[simp] theorem State.awaitStatus_faultAccess (s : State) : s.awaitStatus.faultAccess = s.faultAccess := rfl
@[simp] theorem State.awaitStatus_slots (s : State) : s.awaitStatus.slots = s.slots := rfl
@[simp] theorem State.awaitStatus_resp (s : State) : s.awaitStatus.resp = s.resp := rfl
@[simp] theorem State.awaitStatus_host (s : State) : s.awaitStatus.host = s.host := rfl
@[simp] theorem State.awaitStatus_draws (s : State) : s.awaitStatus.draws = s.draws := rfl

@[simp] theorem State.raise_cfg (s : State) (k : Fault) : (s.raise k).cfg = s.cfg := by cases k <;> rfl
@[simp] theorem State.raise_fsm (s : State) (k : Fault) : (s.raise k).fsm = s.fsm := by cases k <;> rfl
@[simp] theorem State.raise_latOp (s : State) (k : Fault) : (s.raise k).latOp = s.latOp := by cases k <;> rfl
@[simp] theorem State.raise_latAddr (s : State) (k : Fault) : (s.raise k).latAddr = s.latAddr := by cases k <;> rfl
@[simp] theorem State.raise_latData (s : State) (k : Fault) : (s.raise k).latData = s.latData := by cases k <;> rfl
@[simp] theorem State.raise_latWmask (s : State) (k : Fault) : (s.raise k).latWmask = s.latWmask := by cases k <;> rfl
@[simp] theorem State.raise_matchFlags (s : State) (k : Fault) : (s.raise k).matchFlags = s.matchFlags := by cases k <;> rfl
@[simp] theorem State.raise_pma (s : State) (k : Fault) : (s.raise k).pma = s.pma := by cases k <;> rfl
@[simp] theorem State.raise_res (s : State) (k : Fault) : (s.raise k).res = s.res := by cases k <;> rfl
@[simp] theorem State.raise_value (s : State) (k : Fault) : (s.raise k).value = s.value := by cases k <;> rfl
@[simp] theorem State.raise_care (s : State) (k : Fault) : (s.raise k).care = s.care := by cases k <;> rfl
@[simp] theorem State.raise_control (s : State) (k : Fault) : (s.raise k).control = s.control := by cases k <;> rfl
@[simp] theorem State.raise_wdata (s : State) (k : Fault) : (s.raise k).wdata = s.wdata := by cases k <;> rfl
@[simp] theorem State.raise_address (s : State) (k : Fault) : (s.raise k).address = s.address := by cases k <;> rfl
@[simp] theorem State.raise_ctrlV (s : State) (k : Fault) : (s.raise k).ctrlV = s.ctrlV := by cases k <;> rfl
@[simp] theorem State.raise_addrV (s : State) (k : Fault) : (s.raise k).addrV = s.addrV := by cases k <;> rfl
@[simp] theorem State.raise_dataV (s : State) (k : Fault) : (s.raise k).dataV = s.dataV := by cases k <;> rfl
@[simp] theorem State.raise_raState (s : State) (k : Fault) : (s.raise k).raState = s.raState := by cases k <;> rfl
@[simp] theorem State.raise_ciState (s : State) (k : Fault) : (s.raise k).ciState = s.ciState := by cases k <;> rfl
@[simp] theorem State.raise_ciRd (s : State) (k : Fault) : (s.raise k).ciRd = s.ciRd := by cases k <;> rfl
@[simp] theorem State.raise_faultMisuse (s : State) (k : Fault) :
    (s.raise k).faultMisuse = (s.faultMisuse || k == .protocolMisuse) := by
  cases k <;> simp [State.raise]
@[simp] theorem State.raise_faultSettle (s : State) (k : Fault) :
    (s.raise k).faultSettle = (s.faultSettle || k == .settleViolation) := by
  cases k <;> simp [State.raise]
@[simp] theorem State.raise_faultAccess (s : State) (k : Fault) :
    (s.raise k).faultAccess = (s.faultAccess || k == .badRegisterAccess) := by
  cases k <;> simp [State.raise]
@[simp] theorem State.raise_slots (s : State) (k : Fault) : (s.raise k).slots = s.slots := by cases k <;> rfl
@[simp] theorem State.raise_resp (s : State) (k : Fault) : (s.raise k).resp = s.resp := by cases k <;> rfl
@[simp] theorem State.raise_host (s : State) (k : Fault) : (s.raise k).host = s.host := by cases k <;> rfl
@[simp] theorem State.raise_draws (s : State) (k : Fault) : (s.raise k).draws = s.draws := by cases k <;> rfl
@[simp] theorem State.executePhase_cfg (s : State) : s.executePhase.cfg = s.cfg := by
  unfold State.executePhase
  split <;> rfl
@[simp] theorem State.executePhase_fsm (s : State) : s.executePhase.fsm = s.fsm := by
  unfold State.executePhase
  split <;> rfl
@[simp] theorem State.executePhase_latOp (s : State) : s.executePhase.latOp = s.latOp := by
  unfold State.executePhase
  split <;> rfl
@[simp] theorem State.executePhase_latAddr (s : State) : s.executePhase.latAddr = s.latAddr := by
  unfold State.executePhase
  split <;> rfl
@[simp] theorem State.executePhase_latData (s : State) : s.executePhase.latData = s.latData := by
  unfold State.executePhase
  split <;> rfl
@[simp] theorem State.executePhase_latWmask (s : State) : s.executePhase.latWmask = s.latWmask := by
  unfold State.executePhase
  split <;> rfl
@[simp] theorem State.executePhase_pma (s : State) : s.executePhase.pma = s.pma := by
  unfold State.executePhase
  split <;> rfl
@[simp] theorem State.executePhase_res (s : State) : s.executePhase.res = s.res := by
  unfold State.executePhase
  split <;> rfl
@[simp] theorem State.executePhase_control (s : State) : s.executePhase.control = s.control := by
  unfold State.executePhase
  split <;> rfl
@[simp] theorem State.executePhase_wdata (s : State) : s.executePhase.wdata = s.wdata := by
  unfold State.executePhase
  split <;> rfl
@[simp] theorem State.executePhase_address (s : State) : s.executePhase.address = s.address := by
  unfold State.executePhase
  split <;> rfl
@[simp] theorem State.executePhase_ctrlV (s : State) : s.executePhase.ctrlV = s.ctrlV := by
  unfold State.executePhase
  split <;> rfl
@[simp] theorem State.executePhase_addrV (s : State) : s.executePhase.addrV = s.addrV := by
  unfold State.executePhase
  split <;> rfl
@[simp] theorem State.executePhase_dataV (s : State) : s.executePhase.dataV = s.dataV := by
  unfold State.executePhase
  split <;> rfl
@[simp] theorem State.executePhase_raState (s : State) : s.executePhase.raState = s.raState := by
  unfold State.executePhase
  split <;> rfl
@[simp] theorem State.executePhase_ciState (s : State) : s.executePhase.ciState = s.ciState := by
  unfold State.executePhase
  split <;> rfl
@[simp] theorem State.executePhase_ciRd (s : State) : s.executePhase.ciRd = s.ciRd := by
  unfold State.executePhase
  split <;> rfl
@[simp] theorem State.executePhase_faultMisuse (s : State) : s.executePhase.faultMisuse = s.faultMisuse := by
  unfold State.executePhase
  split <;> rfl
@[simp] theorem State.executePhase_faultSettle (s : State) : s.executePhase.faultSettle = s.faultSettle := by
  unfold State.executePhase
  split <;> rfl
@[simp] theorem State.executePhase_faultAccess (s : State) : s.executePhase.faultAccess = s.faultAccess := by
  unfold State.executePhase
  split <;> rfl
@[simp] theorem State.executePhase_slots (s : State) : s.executePhase.slots = s.slots := by
  unfold State.executePhase
  split <;> rfl
@[simp] theorem State.executePhase_resp (s : State) : s.executePhase.resp = s.resp := by
  unfold State.executePhase
  split <;> rfl
@[simp] theorem State.executePhase_host (s : State) : s.executePhase.host = s.host := by
  unfold State.executePhase
  split <;> rfl
@[simp] theorem State.executePhase_draws (s : State) : s.executePhase.draws = s.draws := by
  unfold State.executePhase
  split <;> rfl
@[simp] theorem State.probePhase_cfg (s : State) : s.probePhase.cfg = s.cfg := by
  unfold State.probePhase
  split <;> rfl
@[simp] theorem State.probePhase_fsm (s : State) : s.probePhase.fsm = s.fsm := by
  unfold State.probePhase
  split <;> rfl
@[simp] theorem State.probePhase_latOp (s : State) : s.probePhase.latOp = s.latOp := by
  unfold State.probePhase
  split <;> rfl
@[simp] theorem State.probePhase_latAddr (s : State) : s.probePhase.latAddr = s.latAddr := by
  unfold State.probePhase
  split <;> rfl
@[simp] theorem State.probePhase_latData (s : State) : s.probePhase.latData = s.latData := by
  unfold State.probePhase
  split <;> rfl
@[simp] theorem State.probePhase_latWmask (s : State) : s.probePhase.latWmask = s.latWmask := by
  unfold State.probePhase
  split <;> rfl
@[simp] theorem State.probePhase_matchFlags (s : State) : s.probePhase.matchFlags = s.matchFlags := by
  unfold State.probePhase
  split <;> rfl
@[simp] theorem State.probePhase_value (s : State) : s.probePhase.value = s.value := by
  unfold State.probePhase
  split <;> rfl
@[simp] theorem State.probePhase_care (s : State) : s.probePhase.care = s.care := by
  unfold State.probePhase
  split <;> rfl
@[simp] theorem State.probePhase_control (s : State) : s.probePhase.control = s.control := by
  unfold State.probePhase
  split <;> rfl
@[simp] theorem State.probePhase_wdata (s : State) : s.probePhase.wdata = s.wdata := by
  unfold State.probePhase
  split <;> rfl
@[simp] theorem State.probePhase_address (s : State) : s.probePhase.address = s.address := by
  unfold State.probePhase
  split <;> rfl
@[simp] theorem State.probePhase_ctrlV (s : State) : s.probePhase.ctrlV = s.ctrlV := by
  unfold State.probePhase
  split <;> rfl
@[simp] theorem State.probePhase_addrV (s : State) : s.probePhase.addrV = s.addrV := by
  unfold State.probePhase
  split <;> rfl
@[simp] theorem State.probePhase_dataV (s : State) : s.probePhase.dataV = s.dataV := by
  unfold State.probePhase
  split <;> rfl
@[simp] theorem State.probePhase_raState (s : State) : s.probePhase.raState = s.raState := by
  unfold State.probePhase
  split <;> rfl
@[simp] theorem State.probePhase_ciState (s : State) : s.probePhase.ciState = s.ciState := by
  unfold State.probePhase
  split <;> rfl
@[simp] theorem State.probePhase_ciRd (s : State) : s.probePhase.ciRd = s.ciRd := by
  unfold State.probePhase
  split <;> rfl
@[simp] theorem State.probePhase_faultMisuse (s : State) : s.probePhase.faultMisuse = s.faultMisuse := by
  unfold State.probePhase
  split <;> rfl
@[simp] theorem State.probePhase_faultSettle (s : State) : s.probePhase.faultSettle = s.faultSettle := by
  unfold State.probePhase
  split <;> rfl
@[simp] theorem State.probePhase_faultAccess (s : State) : s.probePhase.faultAccess = s.faultAccess := by
  unfold State.probePhase
  split <;> rfl
@[simp] theorem State.probePhase_slots (s : State) : s.probePhase.slots = s.slots := by
  unfold State.probePhase
  split <;> rfl
@[simp] theorem State.probePhase_resp (s : State) : s.probePhase.resp = s.resp := by
  unfold State.probePhase
  split <;> rfl
@[simp] theorem State.probePhase_host (s : State) : s.probePhase.host = s.host := by
  unfold State.probePhase
  split <;> rfl

end Sys2Proof.Machine
end

