-- ==== Sys2Proof/Laws/Storage.lean ====
section
/-! SUPPORT. What `SbWrite` does to each byte of the Storage Bank, that it keeps the canonical form, and what the priority
encoder answers. -/

namespace Sys2Proof.Machine

/-- Byte address `a` is a lane of entry `i` that the mask selects. -/
def Selected (i : Nat) (m : Mask) (a : Nat) : Prop := a / 4 = i ∧ m.getLsbD (a % 4) = true

theorem storeLanes_eq (blank : Option Byte) (i : Nat) (d : Word) (m : Mask) (mem : Memory) :
    storeLanes blank i d m mem =
      let w := fun k mem => if m.getLsbD k then Memory.write blank (4 * i + k) (byteOf d k) mem else mem
      w 3 (w 2 (w 1 (w 0 mem))) := rfl

/-- A masked store reads back on the selected lanes and leaves every other address alone. -/
theorem find_storeLanes (blank : Option Byte) (i : Nat) (d : Word) (m : Mask) (mem : Memory)
    (h : ∀ k < 4, some (byteOf d k) ≠ blank) (a : Nat) :
    Memory.find a (storeLanes blank i d m mem) =
      if a / 4 = i ∧ m.getLsbD (a % 4) = true then some (byteOf d (a % 4)) else Memory.find a mem := by
  have hw : ∀ k < 4, ∀ (mem : Memory),
      Memory.find a (if m.getLsbD k then Memory.write blank (4 * i + k) (byteOf d k) mem else mem) =
        if m.getLsbD k = true ∧ a = 4 * i + k then some (byteOf d k) else Memory.find a mem := by
    intro k hk mem
    by_cases hm : m.getLsbD k = true
    · rw [if_pos hm, Memory.find_write _ _ _ _ _ (h k hk)]
      simp [hm]
    · simp [hm]
  rw [storeLanes_eq]
  simp only [hw 3 (by omega), hw 2 (by omega), hw 1 (by omega), hw 0 (by omega)]
  have hdm : a = 4 * (a / 4) + a % 4 := by omega
  have hlt : a % 4 < 4 := Nat.mod_lt _ (by omega)
  generalize hq : a / 4 = q at *
  generalize hr : a % 4 = r at *
  subst hdm
  by_cases hi : q = i
  · subst hi
    interval_cases r <;> simp
  · have : ∀ k < 4, ¬ (4 * q + r = 4 * i + k) := by intro k hk; omega
    simp [hi, this 1 (by omega), this 2 (by omega), this 3 (by omega)]
    omega

theorem wf_storeLanes (blank : Option Byte) (i : Nat) (d : Word) (m : Mask) (mem : Memory)
    (h : Memory.wf blank mem) : Memory.wf blank (storeLanes blank i d m mem) := by
  have hw : ∀ k (mem : Memory), Memory.wf blank mem →
      Memory.wf blank (if m.getLsbD k then Memory.write blank (4 * i + k) (byteOf d k) mem else mem) := by
    intro k mem hm
    split_ifs
    · exact Memory.wf_write _ _ _ _ hm
    · exact hm
  rw [storeLanes_eq]
  exact hw 3 _ (hw 2 _ (hw 1 _ (hw 0 _ h)))

/-- The byte of `value` at `a` after a Write (20_memory R51). -/
theorem State.sbWrite_valueByte (s : State) (i : Nat) (d : Word) (m : Mask) (a : Nat) :
    (s.sbWrite i d m).valueByte a =
      if a / 4 = i ∧ m.getLsbD (a % 4) = true then byteOf d (a % 4) else s.valueByte a := by
  unfold State.valueByte
  rw [State.sbWrite_value, find_storeLanes _ _ _ _ _ (by simp [Memory.valueBlank])]
  split_ifs <;> rfl

/-- The byte of `care` at `a` after a Write (20_memory R51). -/
theorem State.sbWrite_careByte (s : State) (i : Nat) (d : Word) (m : Mask) (a : Nat) :
    (s.sbWrite i d m).careByte a =
      if a / 4 = i ∧ m.getLsbD (a % 4) = true then 0xFF else s.careByte a := by
  unfold State.careByte
  rw [State.sbWrite_care, find_storeLanes]
  · split_ifs
    · rw [byteOf_onesWord_32 _ (Nat.mod_lt _ (by omega))]
      rfl
    · rfl
  · intro k hk
    rw [byteOf_onesWord_32 _ hk]
    decide

theorem length_sbCompare (s : State) (k : Key) : (s.sbCompare k).length = s.cfg.entries := by
  simp [State.sbCompare]

/-- The priority encoder's answer is an index of the vector, or 0. -/
theorem priorityEncode_toNat_lt (f : List Bool) (h0 : 0 < f.length) (h : f.length ≤ 2 ^ 28) :
    (priorityEncode f).toNat < f.length := by
  unfold priorityEncode
  rw [BitVec.toNat_ofNat]
  cases hf : f.findIdx? id with
  | none => simpa using h0
  | some i =>
    obtain ⟨hi, -⟩ := List.findIdx?_eq_some_iff_getElem.1 hf
    rw [Option.getD_some, Nat.mod_eq_of_lt (by omega)]
    exact hi

end Sys2Proof.Machine
end

