-- ==== Sys2Proof/Laws/Ops.lean ====
section
/-! SUPPORT. What each shared operation can do, said once: `whenLive`, `tick` in each engine state, and the three ways a command
is taken. -/

namespace Sys2Proof.Machine

/-- `whenLive` answers a next state exactly when the state is live and what it guards does. -/
theorem whenLive_next {s t : State} {k : Answer State} : s.whenLive k = .next t ↔ s.Live ∧ k = .next t := by
  unfold State.whenLive State.Live
  cases s.cfg.valid <;> cases s.raised <;> cases s.strayWrite <;> simp

/-- On a live state `whenLive` is what it guards. -/
theorem State.Live.whenLive {s : State} (h : s.Live) (k : Answer State) : s.whenLive k = k := by
  obtain ⟨h1, h2, h3⟩ := h
  simp [State.whenLive, h1, h2, h3]

theorem raised_eq_none (s : State) :
    s.raised = none ↔ s.faultSettle = false ∧ s.faultAccess = false ∧ s.faultMisuse = false := by
  unfold State.raised
  cases s.faultSettle <;> cases s.faultAccess <;> cases s.faultMisuse <;> simp

/-- The delivery leaves everything but its own sequencer, the slots and the response alone. -/
theorem deliver_frame (s : State) :
    s.deliver = { s with
      raState := s.deliver.raState, ciState := s.deliver.ciState, slots := s.deliver.slots, resp := s.deliver.resp } := by
  unfold State.deliver State.deliverStatus State.route State.quiet
  cases s.cfg.frontEnd <;> simp only <;> split_ifs <;> rfl

/-- Nothing is delivered outside the RESPONSE cycle. -/
theorem deliver_of_ne_response {s : State} (h : s.fsm ≠ .response) : s.deliver = s.quiet := by
  unfold State.deliver State.deliverStatus State.route
  cases s.cfg.frontEnd <;> simp [h]

@[simp] theorem deliver_cfg (s : State) : s.deliver.cfg = s.cfg := by rw [deliver_frame]
@[simp] theorem deliver_fsm (s : State) : s.deliver.fsm = s.fsm := by rw [deliver_frame]
@[simp] theorem deliver_latOp (s : State) : s.deliver.latOp = s.latOp := by rw [deliver_frame]

/-- An idle cycle with nothing presented changes nothing. -/
theorem tick_none_idle {s : State} (h : s.fsm = .idle) : s.tick none = s.quiet := by
  simp [State.tick, State.engineCycle, h, deliver_of_ne_response (s := s) (by simp [h])]

/-- An idle cycle accepts an active request (40_control_engine R102). -/
theorem tick_some_idle {s : State} {r : Request} (h : s.fsm = .idle) (hr : r.csb = false) :
    s.tick (some r) = s.quiet.latch r := by
  simp [State.tick, State.engineCycle, h, hr, deliver_of_ne_response (s := s) (by simp [h])]

/-- Outside IDLE a request is ignored (40_control_engine R103). -/
theorem tick_busy {s : State} (req : Option Request) (h : s.fsm ≠ .idle) : s.tick req = s.tick none := by
  unfold State.tick State.engineCycle
  rw [deliver_fsm]
  cases hf : s.fsm <;> simp_all

theorem tick_execute {s : State} (req : Option Request) (h : s.fsm = .execute) :
    s.tick req = s.quiet.executePhase.goto .probe := by
  simp [State.tick, State.engineCycle, h, deliver_of_ne_response (s := s) (by simp [h])]

theorem tick_probe {s : State} (req : Option Request) (h : s.fsm = .probe) :
    s.tick req = s.quiet.probePhase.goto .response := by
  simp [State.tick, State.engineCycle, h, deliver_of_ne_response (s := s) (by simp [h])]

theorem tick_response {s : State} (req : Option Request) (h : s.fsm = .response) :
    s.tick req = s.deliver.goto .idle := by
  simp [State.tick, State.engineCycle, h]

/-- A custom-instruction command that answers a next state was held, rejected or accepted. -/
theorem ciCycle_next {s t : State} {cmd : Command} {r : Request} {rd : Nat} {c : Bool} {a : Nat}
    (h : s.ciCycle cmd r rd c a = .next t) :
    s.Live ∧ s.cfg.frontEnd = .ci ∧
      ((s.ciAccepts = false ∧ t = (s.tick none).hold cmd) ∨
        (s.ciAccepts = true ∧ c = true ∧ s.cfg.entries ≤ a ∧ t = (s.tick none).respond (.ci .outOfRange rd none)) ∨
        (s.ciAccepts = true ∧ (c = true → a < s.cfg.entries) ∧
          t = (s.tick (some r)).awaitResult rd)) := by
  obtain ⟨hl, h⟩ := whenLive_next.1 h
  split_ifs at h with h1 h2 h3
  · exact ⟨hl, by simpa using h1, .inl ⟨h2, by simpa using h.symm⟩⟩
  · exact ⟨hl, by simpa using h1, .inr (.inl ⟨by simpa using h2, h3.1, h3.2, by simpa using h.symm⟩)⟩
  · refine ⟨hl, by simpa using h1, .inr (.inr ⟨by simpa using h2, fun hc => ?_, by simpa using h.symm⟩)⟩
    exact not_le.1 fun hle => h3 ⟨hc, hle⟩

/-- A register transaction that answers a next state raised SettleViolation or was dispatched. -/
theorem regCycle_next {s t : State} {k : Answer State} (h : s.regCycle k = .next t) :
    s.Live ∧ s.cfg.frontEnd = .reg ∧
      ((s.regAccepts = false ∧ t = (s.tick none).raise .settleViolation) ∨ (s.regAccepts = true ∧ k = .next t)) := by
  obtain ⟨hl, h⟩ := whenLive_next.1 h
  split_ifs at h with h1 h2
  · exact ⟨hl, by simpa using h1, .inl ⟨h2, by simpa using h.symm⟩⟩
  · exact ⟨hl, by simpa using h1, .inr ⟨by simpa using h2, h⟩⟩

/-- A direct engine request that answers a next state named an entry or was ignored, and the engine took its cycle. -/
theorem engCycle_next {s t : State} {r : Request} (h : s.engCycle r = .next t) :
    s.Live ∧ t = s.tick (some r) ∧ (s.fsm = .idle → r.op.takesAddress = true → r.addr.toNat < s.cfg.entries) := by
  obtain ⟨hl, h⟩ := whenLive_next.1 h
  split_ifs at h with h1
  refine ⟨hl, by simpa using h.symm, fun hf hop => not_le.1 fun hle => h1 ⟨?_, hop, hle⟩⟩
  simp [State.ready, hf]

/-- An accepting instruction adapter. -/
theorem State.CiReady.accepts {s : State} (h : s.CiReady) : s.ciAccepts = true := by
  obtain ⟨-, -, h1, h2⟩ := h
  simp [State.ciAccepts, h1, h2]

/-- A command with no address to check, or one in range, is accepted by a ready adapter. -/
theorem State.CiReady.ciCycle {s : State} (h : s.CiReady) (cmd : Command) (r : Request) (rd : Nat) (c : Bool) (a : Nat)
    (hr : r.csb = false) (ha : c = true → a < s.cfg.entries) :
    s.ciCycle cmd r rd c a = .next ((s.quiet.latch r).awaitResult rd) := by
  have hacc := h.accepts
  obtain ⟨hl, hf, hi, -⟩ := h
  have hno : ¬ (c = true ∧ s.cfg.entries ≤ a) := fun hc => absurd (ha hc.1) (by omega)
  simp [State.ciCycle, hl.whenLive, hf, hacc, hno, tick_some_idle hi hr]

/-- A ready register adapter dispatches. -/
theorem State.RegReady.regCycle {s : State} (h : s.RegReady) (k : Answer State) : s.regCycle k = k := by
  obtain ⟨hl, hf, hi, hr⟩ := h
  simp [State.regCycle, hl.whenLive, hf, State.regAccepts, hi, hr]

end Sys2Proof.Machine
end

