-- ==== Sys2Proof/Laws/Step.lean ====
section
/-! SUPPORT. What one step can do to the engine and its storage: every step that answers a next state is one cycle of `tick`
as far as the fields no adapter writes are concerned, and the invariants' building blocks follow from that. -/

namespace Sys2Proof.Machine

/-- The fields only the engine writes, and the parameters nothing writes, agree (20_memory R71). -/
def EngineEq (t u : State) : Prop :=
  t.cfg = u.cfg ∧ t.fsm = u.fsm ∧ t.latOp = u.latOp ∧ t.latAddr = u.latAddr ∧ t.latData = u.latData
    ∧ t.latWmask = u.latWmask ∧ t.matchFlags = u.matchFlags ∧ t.pma = u.pma ∧ t.res = u.res ∧ t.value = u.value
    ∧ t.care = u.care

theorem EngineEq.refl (t : State) : EngineEq t t := ⟨rfl, rfl, rfl, rfl, rfl, rfl, rfl, rfl, rfl, rfl, rfl⟩

/-- A request a front end or a test may present: active, and in range for Write and Read. -/
def GoodRequest (s : State) (r : Request) : Prop :=
  r.csb = false ∧ (r.op.takesAddress = true → r.addr.toNat < s.cfg.entries)

theorem regCycle_tick {s t : State} {k : Answer State} (h : s.regCycle k = .next t)
    (hk : k = .next t → s.regAccepts = true → ∃ req, EngineEq t (s.tick req)) :
    s.Live ∧ ∃ req, EngineEq t (s.tick req) := by
  obtain ⟨hl, -, ⟨-, rfl⟩ | ⟨ha, hk'⟩⟩ := regCycle_next h
  · exact ⟨hl, none, by simp [EngineEq]⟩
  · exact ⟨hl, hk hk' ha⟩

theorem execWrWdata_tick {v : Word} {s t : State} (h : execWrWdata v s = .next t) :
    s.Live ∧ ∃ req, EngineEq t (s.tick req) := by
  refine regCycle_tick h fun hk _ => ?_
  split_ifs at hk <;> injection hk with hk <;> subst hk
  · exact ⟨none, by simp [EngineEq]⟩
  · exact ⟨some (regWriteRequest s.address v s.control), by simp [EngineEq]⟩
  · exact ⟨none, by simp [EngineEq]⟩

theorem execWrAddress_tick {v : Word} {s t : State} (h : execWrAddress v s = .next t) :
    s.Live ∧ ∃ req, EngineEq t (s.tick req) := by
  refine regCycle_tick h fun hk _ => ?_
  split_ifs at hk <;> injection hk with hk <;> subst hk
  · exact ⟨none, by simp [EngineEq]⟩
  · exact ⟨none, by simp [EngineEq]⟩
  · exact ⟨some (regSearchRequest (keyBits s.cfg.keyW v)), by simp [EngineEq]⟩
  · exact ⟨none, by simp [EngineEq]⟩
  · exact ⟨some (regWriteRequest (keyBits s.cfg.keyW v) s.wdata s.control), by simp [EngineEq]⟩
  · exact ⟨none, by simp [EngineEq]⟩

/-- Every meaning that answers a next state is one cycle of the engine under some request. -/
theorem exec_tick {i : Instr} {s t : State} (h : exec i s = .next t) : s.Live ∧ ∃ req, EngineEq t (s.tick req) := by
  have hci : ∀ {cmd r rd c a}, s.ciCycle cmd r rd c a = .next t → s.Live ∧ ∃ req, EngineEq t (s.tick req) := by
    intro cmd r rd c a h
    obtain ⟨hl, -, ⟨-, rfl⟩ | ⟨-, -, -, rfl⟩ | ⟨-, -, rfl⟩⟩ := ciCycle_next h
    · exact ⟨hl, none, by simp [EngineEq]⟩
    · exact ⟨hl, none, by simp [EngineEq]⟩
    · exact ⟨hl, some r, by simp [EngineEq]⟩
  have hen : ∀ {r}, s.engCycle r = .next t → s.Live ∧ ∃ req, EngineEq t (s.tick req) := by
    intro r h
    obtain ⟨hl, rfl, -⟩ := engCycle_next h
    exact ⟨hl, some r, by simp [EngineEq]⟩
  cases i with
  | tcamWrite opA opB rd => exact hci (by simpa only [exec, execTcamWrite] using h)
  | tcamRead opA opB rd => exact hci (by simpa only [exec, execTcamRead] using h)
  | tcamSearch opA opB rd => exact hci (by simpa only [exec, execTcamSearch] using h)
  | tcamStatus opA opB rd => exact hci (by simpa only [exec, execTcamStatus] using h)
  | engWrite a d w => exact hen (by simpa only [exec, execEngWrite] using h)
  | engRead a d w => exact hen (by simpa only [exec, execEngRead] using h)
  | engSearch a d w => exact hen (by simpa only [exec, execEngSearch] using h)
  | engStatus a d w => exact hen (by simpa only [exec, execEngStatus] using h)
  | rdStatus => exact regCycle_tick h fun hk _ => ⟨some statusRequest, by cases hk; simp [EngineEq]⟩
  | wrStatus v => exact regCycle_tick h fun hk _ => ⟨none, by cases hk; simp [EngineEq]⟩
  | rdControl => exact regCycle_tick h fun hk _ => ⟨none, by cases hk; simp [EngineEq]⟩
  | wrControl v => exact regCycle_tick h fun hk _ => ⟨none, by cases hk; simp [EngineEq]⟩
  | rdWdata => exact regCycle_tick h fun hk _ => ⟨none, by cases hk; simp [EngineEq]⟩
  | rdAddress => exact regCycle_tick h fun hk _ => ⟨none, by cases hk; simp [EngineEq]⟩
  | wrWdata v => exact execWrWdata_tick h
  | wrAddress v => exact execWrAddress_tick h

/-- Every step that answers a next state is one cycle of the engine under some request, from a live state. -/
theorem step_tick {s t : State} (h : step s = .next t) : s.Live ∧ ∃ req, EngineEq t (s.tick req) := by
  have hadv : ∀ u : State, u = s.advance → (u.Live ∧ ∃ req, EngineEq t (u.tick req)) →
      s.Live ∧ ∃ req, EngineEq t (s.tick req) := by
    rintro u rfl ⟨hl, req, he⟩
    refine ⟨hl, req, ?_⟩
    have hd : ∀ v : State, EngineEq (v.advance.tick req) (v.tick req) := by
      intro v
      cases hf : v.fsm with
      | idle =>
        cases req with
        | none => rw [tick_none_idle (s := v.advance) (by simpa using hf), tick_none_idle hf]; exact EngineEq.refl _
        | some r =>
          cases hr : r.csb with
          | false =>
            rw [tick_some_idle (s := v.advance) (by simpa using hf) hr, tick_some_idle hf hr]; exact EngineEq.refl _
          | true =>
            simp only [State.tick, State.engineCycle, deliver_fsm, State.advance_fsm, hf, hr, if_true]
            rw [deliver_frame v.advance, deliver_frame v]; exact EngineEq.refl _
      | execute =>
        rw [tick_execute (s := v.advance) _ (by simpa using hf), tick_execute _ hf]
        cases ho : v.latOp <;> simp [EngineEq, State.executePhase, ho, State.sbCompare] ; intros; rfl
      | probe =>
        rw [tick_probe (s := v.advance) _ (by simpa using hf), tick_probe _ hf]
        cases ho : v.latOp <;> simp [EngineEq, State.probePhase, ho, State.drawPma]
      | response =>
        rw [tick_response (s := v.advance) _ (by simpa using hf), tick_response _ hf, deliver_frame v.advance,
          deliver_frame v]
        exact EngineEq.refl _
    obtain ⟨a0, a1, a2, a3, a4, a5, a6, a7, a8, a9, a10⟩ := he
    obtain ⟨b0, b1, b2, b3, b4, b5, b6, b7, b8, b9, b10⟩ := hd s
    exact ⟨a0.trans b0, a1.trans b1, a2.trans b2, a3.trans b3, a4.trans b4, a5.trans b5, a6.trans b6, a7.trans b7,
      a8.trans b8, a9.trans b9, a10.trans b10⟩
  have hidle : ∀ u : State, u.idleCycle = .next t → u.Live ∧ ∃ req, EngineEq t (u.tick req) := by
    intro u h
    obtain ⟨hl, h⟩ := whenLive_next.1 h
    cases h
    exact ⟨hl, none, EngineEq.refl _⟩
  refine hadv _ rfl ?_
  unfold step at h
  split at h
  · exact hidle _ h
  · split at h
    · exact exec_tick h
    · next e _ =>
      cases e with
      | outsideWindow => exact hidle _ h
      | inactiveRequest => exact hidle _ h
      | badRegisterAccess => exact regCycle_tick h fun hk _ => ⟨none, by cases hk; simp [EngineEq]⟩
      | slotTooWide => exact absurd (whenLive_next.1 h).2 (by simp)
      | addressTooWide => exact absurd (whenLive_next.1 h).2 (by simp)

end Sys2Proof.Machine
end

