-- ==== Sys2Proof/Laws/Traversal.lean ====
section
/-! SUPPORT. The three cycles after an acceptance, in which nothing is presented: each is one `tick`, and what the front end
delivers in the last of them. -/

namespace Sys2Proof.Machine

/-- A live state's cycle with nothing presented. -/
theorem step_quiet {s : State} (hl : s.Live) (hq : s.presented = none) : step s = .next (s.advance.tick none) := by
  have : s.advance.Live := hl
  simp [step, hq, State.idleCycle, this.whenLive]

/-- Cycles run one at a time. -/
theorem runCycles_succ {s t : State} (n : Nat) (h : step s = .next t) : s.runCycles (n + 1) = t.runCycles n := by
  have h' : core.step s = .next t := h
  simp only [State.runCycles, Host.Core.run, h']
  rfl

@[simp] theorem runCycles_zero (s : State) : s.runCycles 0 = .next s := rfl

/-- Quiet cycles come one at a time. -/
theorem State.QuietFor.head {s : State} {n : Nat} (h : s.QuietFor (n + 1)) :
    s.presented = none ∧ s.advance.QuietFor n := by
  unfold State.QuietFor State.presented at *
  cases hh : s.host with
  | nil => simp [hh]
  | cons c r =>
    simp only [hh, List.take_succ_cons, List.mem_cons, forall_eq_or_imp] at h
    simp [hh, h.1]
    exact h.2

/-- A state that agrees with a live one where it matters is live. -/
theorem State.Live.of_eq {s t : State} (h : s.Live) (h1 : t.cfg = s.cfg) (h2 : t.raised = s.raised)
    (h3 : t.strayWrite = false) : t.Live :=
  ⟨by rw [h1]; exact h.1, by rw [h2]; exact h.2.1, h3⟩

theorem raised_congr {s t : State} (h1 : t.faultSettle = s.faultSettle) (h2 : t.faultAccess = s.faultAccess)
    (h3 : t.faultMisuse = s.faultMisuse) : t.raised = s.raised := by
  simp only [State.raised, h1, h2, h3]

theorem strayWrite_of_ne_execute {s : State} (h : s.fsm ≠ .execute) : s.strayWrite = false := by
  simp [State.strayWrite, h]

/-- After the EXECUTE cycle. -/
def State.afterExecute (s : State) : State := s.advance.quiet.executePhase.goto .probe

/-- After the PROBE cycle. -/
def State.afterProbe (s : State) : State := s.advance.quiet.probePhase.goto .response

/-- After the RESPONSE cycle. -/
def State.afterResponse (s : State) : State := s.advance.deliver.goto .idle

/-- The three quiet cycles of a live state in EXECUTE. -/
theorem traverse {s : State} (hl : s.Live) (hf : s.fsm = .execute) (hq : s.QuietFor 3) :
    step s = .next s.afterExecute ∧ step s.afterExecute = .next s.afterExecute.afterProbe
      ∧ step s.afterExecute.afterProbe = .next s.afterExecute.afterProbe.afterResponse := by
  obtain ⟨q1, hq⟩ := hq.head
  obtain ⟨q2, hq⟩ := hq.head
  obtain ⟨q3, hq⟩ := hq.head
  refine ⟨?_, ?_, ?_⟩
  · rw [step_quiet hl q1, tick_execute _ (by simpa using hf)]
    rfl
  · rw [step_quiet, tick_probe _ (by simp [State.afterExecute])]
    · rfl
    · refine hl.of_eq ?_ (raised_congr ?_ ?_ ?_) (strayWrite_of_ne_execute ?_) <;> simp [State.afterExecute]
    · simpa [State.presented, State.afterExecute] using q2
  · rw [step_quiet, tick_response _ (by simp [State.afterProbe])]
    · rfl
    · refine hl.of_eq ?_ (raised_congr ?_ ?_ ?_) (strayWrite_of_ne_execute ?_) <;>
        simp [State.afterExecute, State.afterProbe]
    · simpa [State.presented, State.afterProbe, State.afterExecute] using q3

/-- A latched request is live if it names an entry where its operation takes one. -/
theorem State.Live.latch {s : State} {r : Request} (hl : s.Live)
    (ha : r.op.takesAddress = true → r.addr.toNat < s.cfg.entries) : (s.latch r).Live := by
  refine hl.of_eq rfl rfl ?_
  cases ho : r.op <;> simp [State.strayWrite, ho]
  exact decide_eq_false (not_le.2 (ha (by rw [ho]; rfl)))

/-- With no adapter waiting, nothing is delivered. -/
theorem deliver_of_ready {s : State} (h1 : s.cfg.frontEnd = .reg → s.raState = .ready)
    (h2 : s.cfg.frontEnd = .ci → s.ciState = .ready) : s.deliver = s.quiet := by
  unfold State.deliver State.deliverStatus State.route
  cases hf : s.cfg.frontEnd <;> simp_all

/-- What the router delivers (43_custom_instruction R211). -/
theorem deliver_of_wait {s : State} (hf : s.cfg.frontEnd = .ci) (hc : s.ciState = .wait) (hr : s.fsm = .response) :
    s.deliver = { s with
      ciState := .ready, slots := Memory.put s.ciRd s.result s.slots,
      resp := some (.ci .okay s.ciRd (some s.result)) } := by
  simp [State.deliver, hf, State.route, hc, hr]
  exact ⟨rfl, rfl⟩

/-- What the register adapter delivers (42_register_adapter R176). -/
theorem deliver_of_waitStatus {s : State} (hf : s.cfg.frontEnd = .reg) (hc : s.raState = .waitStatus)
    (hr : s.fsm = .response) :
    s.deliver = { s with raState := .ready, resp := some (.reg .okay (some s.result)) } := by
  simp [State.deliver, hf, State.deliverStatus, hc, hr]
  rfl

/-- The address of a checked command is the address the engine latches (30_encoding R85). -/
theorem keyBits_eq_opAddr {c : Config} {opA : Word} (hv : c.valid = true) (h : opAddr opA < c.entries) :
    (keyBits c.keyW opA).toNat = opAddr opA := by
  obtain ⟨-, h2, -, h4, -⟩ := (valid_iff _).1 hv
  rw [keyBits_toNat h2]
  unfold opAddr at *
  simp only [BitVec.extractLsb'_toNat, Nat.shiftRight_zero] at *
  rw [← Nat.mod_mod_of_dvd _ (Nat.pow_dvd_pow 2 h2)]
  exact Nat.mod_eq_of_lt (lt_of_lt_of_le h h4)

end Sys2Proof.Machine
end

