-- ==== Sys2Proof/Laws/Invariant.lean ====
section
/-! SUPPORT. The invariant, one shared operation at a time: the engine's cycle keeps it, and so does every update the adapters
make after it. -/

namespace Sys2Proof.Machine

/-- A Write of an entry keeps the Storage Bank's invariant. -/
theorem bankInv_sbWrite {s : State} (h : s.BankInv) (i : Nat) (hi : i < s.cfg.entries) (d : Word) (m : Mask) :
    (s.sbWrite i d m).BankInv := by
  obtain ⟨hv, hc, bv, bc, ff, pr⟩ := h
  have hval := find_storeLanes Memory.valueBlank i d m s.value (by simp [Memory.valueBlank])
  have hcare := find_storeLanes Memory.careBlank i (onesWord 32) m s.care
    (by intro k hk; rw [byteOf_onesWord_32 _ hk]; decide)
  have wv := wf_storeLanes Memory.valueBlank i d m s.value hv
  have wc := wf_storeLanes Memory.careBlank i (onesWord 32) m s.care hc
  refine ⟨wv, wc, ?_, ?_, ?_, ?_⟩
  · intro x hx
    have hf := Memory.find_of_mem wv.1 hx
    rw [hval] at hf
    split_ifs at hf with hs
    · show x.1 < 4 * s.cfg.entries
      omega
    · exact bv _ (Memory.mem_of_find hf)
  · intro x hx
    have hf := Memory.find_of_mem wc.1 hx
    rw [hcare] at hf
    split_ifs at hf with hs
    · show x.1 < 4 * s.cfg.entries
      omega
    · exact bc _ (Memory.mem_of_find hf)
  · intro x hx
    have hf := Memory.find_of_mem wc.1 hx
    rw [hcare] at hf
    split_ifs at hf with hs
    · rw [byteOf_onesWord_32 _ (Nat.mod_lt _ (by omega))] at hf
      exact (Option.some.inj hf).symm
    · exact ff _ (Memory.mem_of_find hf)
  · intro x hx
    have hf := Memory.find_of_mem wc.1 hx
    rw [hcare] at hf
    show (Memory.find x.1 (storeLanes Memory.valueBlank i d m s.value)).isSome = true
    rw [hval]
    split_ifs with hs
    · rfl
    · rw [if_neg hs] at hf
      exact pr _ (Memory.mem_of_find hf)

theorem drawPma_toNat_lt (s : State) : s.drawPma.toNat < 2 ^ s.cfg.pmaW := by
  unfold State.drawPma
  rw [BitVec.toNat_ofNat]
  exact lt_of_le_of_lt (Nat.mod_le _ _) (Nat.mod_lt _ (Nat.two_pow_pos _))

/-- The index a Search computes is an entry's where there is one flag an entry. -/
theorem priorityEncode_lt_entries {s : State} (hv : s.cfg.valid = true) (h : s.matchFlags.length = s.cfg.entries) :
    (priorityEncode s.matchFlags).toNat < s.cfg.entries := by
  have hvv := (valid_iff s.cfg).1 hv
  have := priorityEncode_toNat_lt s.matchFlags (by omega) (by have := entries_le_of_valid hv; omega)
  omega

/-- The address of a register Write in range is an entry's (42_register_adapter R171). -/
theorem keyBits_lt_entries {c : Config} {v : Word} (hv : c.valid = true) (h : v.toNat < c.entries) :
    (keyBits c.keyW v).toNat < c.entries := by
  obtain ⟨-, h2, -, h4, -⟩ := (valid_iff _).1 hv
  rw [keyBits_toNat h2, Nat.mod_eq_of_lt (by omega)]
  exact h

/-- In the RESPONSE cycle both sequencers become ready and the slots stay sorted. -/
theorem deliver_response {s : State} (h : s.Inv) (hf : s.fsm = .response) :
    s.deliver.raState = .ready ∧ s.deliver.ciState = .ready ∧ Memory.Sorted s.deliver.slots := by
  obtain ⟨-, -, ⟨-, -, -, -, -, -, w7⟩, ⟨q1, q2, -⟩⟩ := h
  cases hfe : s.cfg.frontEnd with
  | both =>
    refine ⟨?_, ?_, ?_⟩
    · cases hh : s.raState <;> simp_all [State.deliver]
    · cases hh : s.ciState <;> simp_all [State.deliver]
    · simpa [State.deliver, hfe] using w7
  | reg =>
    have hci : s.ciState = .ready := by cases hh : s.ciState <;> simp_all
    cases hra : s.raState with
    | ready =>
      rw [deliver_of_ready (by simp [hra]) (by simp [hci])]
      exact ⟨hra, hci, w7⟩
    | waitStatus =>
      rw [deliver_of_waitStatus hfe hra hf]
      exact ⟨rfl, hci, w7⟩
  | ci =>
    have hra : s.raState = .ready := by cases hh : s.raState <;> simp_all
    cases hci : s.ciState with
    | ready =>
      rw [deliver_of_ready (by simp [hra]) (by simp [hci])]
      exact ⟨hra, hci, w7⟩
    | wait =>
      rw [deliver_of_wait hfe hci hf]
      exact ⟨hra, rfl, Memory.sorted_put _ _ _ w7⟩

/-- Moving on to a busy state keeps the invariant of the sequencers. -/
theorem sequencerInv_goto {s : State} {f : Fsm} (h : s.SequencerInv) (hs : s.fsm ≠ .idle) (hf : f ≠ .idle) :
    (s.goto f).SequencerInv := by
  obtain ⟨q1, q2, q3, q4, q5, q6⟩ := h
  exact ⟨fun hh => ⟨(q1 hh).1, hf, (q1 hh).2.2⟩, fun hh => ⟨(q2 hh).1, hf⟩, fun _ => q3 hs, q4, q5, q6⟩

theorem executePhase_inv {s : State} (h : s.Inv) (hf : s.fsm = .execute) :
    (s.quiet.executePhase.goto .probe).Inv := by
  obtain ⟨hv, hb, ⟨w1, w2, w3, w4, w5, w6, w7⟩, hq⟩ := h
  have hg := sequencerInv_goto (f := .probe) hq (by simp [hf]) (by simp)
  cases ho : s.latOp with
  | write =>
    simp only [State.executePhase, State.quiet_latOp, ho]
    exact ⟨hv, bankInv_sbWrite hb _ (hq.2.2.1 (by simp [hf]) (by rw [ho]; rfl)) _ _, ⟨w1, w2, w3, w4, w5, w6, w7⟩, hg⟩
  | search =>
    simp only [State.executePhase, State.quiet_latOp, ho]
    exact ⟨hv, hb, ⟨w1, w2, w3, w4, w5, length_sbCompare _ _, w7⟩, hg⟩
  | read | status =>
    simp only [State.executePhase, State.quiet_latOp, ho]
    exact ⟨hv, hb, ⟨w1, w2, w3, w4, w5, w6, w7⟩, hg⟩

theorem probePhase_inv {s : State} (h : s.Inv) (hf : s.fsm = .probe) :
    (s.quiet.probePhase.goto .response).Inv := by
  obtain ⟨hv, hb, ⟨w1, w2, w3, w4, w5, w6, w7⟩, hq⟩ := h
  have hg := sequencerInv_goto (f := .response) hq (by simp [hf]) (by simp)
  have hE := entries_le_two_pow_pmaW s.cfg
  have hpe := priorityEncode_lt_entries hv w6
  cases ho : s.latOp with
  | write | read =>
    simp only [State.probePhase, State.quiet_latOp, ho]
    exact ⟨hv, hb, ⟨w1, w2, w3, drawPma_toNat_lt _, w5, w6, w7⟩, hg⟩
  | search =>
    simp only [State.probePhase, State.quiet_latOp, ho]
    exact ⟨hv, hb, ⟨w1, w2, hpe, lt_of_lt_of_le hpe hE, w5, w6, w7⟩, hg⟩
  | status =>
    simp only [State.probePhase, State.quiet_latOp, ho]
    exact ⟨hv, hb, ⟨w1, w2, w3, lt_of_lt_of_le w3 hE, w5, w6, w7⟩, hg⟩

/-- A request a port can present to an idle engine: its address is a `KEY_W`-bit value and names an entry where it must. -/
def Presentable (s : State) (req : Option Request) : Prop :=
  ∀ r, req = some r → r.csb = false →
    r.addr.toNat < 2 ^ s.cfg.keyW ∧ (r.op.takesAddress = true → r.addr.toNat < s.cfg.entries)

/-- The engine's cycle keeps the invariant. -/
theorem tick_inv {s : State} {req : Option Request} (h : s.Inv) (hreq : s.fsm = .idle → Presentable s req) :
    (s.tick req).Inv := by
  cases hf : s.fsm with
  | idle =>
    obtain ⟨hv, hb, ⟨w1, w2, w3, w4, w5, w6, w7⟩, ⟨q1, q2, q3, q4, q5, q6⟩⟩ := h
    cases req with
    | none =>
      rw [tick_none_idle hf]
      exact ⟨hv, hb, ⟨w1, w2, w3, w4, w5, w6, w7⟩, ⟨q1, q2, q3, q4, q5, q6⟩⟩
    | some r =>
      cases hr : r.csb with
      | true =>
        have : s.tick (some r) = s.quiet := by
          simp [State.tick, State.engineCycle, hf, hr, deliver_of_ne_response (s := s) (by simp [hf])]
        rw [this]
        exact ⟨hv, hb, ⟨w1, w2, w3, w4, w5, w6, w7⟩, ⟨q1, q2, q3, q4, q5, q6⟩⟩
      | false =>
        rw [tick_some_idle hf hr]
        obtain ⟨g1, g2⟩ := hreq hf r rfl hr
        refine ⟨hv, hb, ⟨g1, w2, w3, w4, w5, w6, w7⟩, ⟨?_, ?_, fun _ => g2, q4, q5, q6⟩⟩
        · exact fun hh => absurd hf (q1 hh).2.1
        · exact fun hh => absurd hf (q2 hh).2
  | execute =>
    rw [tick_execute _ hf]
    exact executePhase_inv h hf
  | probe =>
    rw [tick_probe _ hf]
    exact probePhase_inv h hf
  | response =>
    rw [tick_response _ hf]
    obtain ⟨e1, e2, e3⟩ := deliver_response h hf
    obtain ⟨hv, hb, ⟨w1, w2, w3, w4, w5, w6, w7⟩, ⟨q1, q2, q3, q4, q5, q6⟩⟩ := h
    rw [deliver_frame]
    refine ⟨hv, hb, ⟨w1, w2, w3, w4, w5, w6, e3⟩, ⟨?_, ?_, fun hh => absurd rfl hh, q4, q5, q6⟩⟩
    · exact fun hh => absurd (e1.symm.trans hh) (by simp)
    · exact fun hh => absurd (e2.symm.trans hh) (by simp)

/-- A cycle with no request keeps the invariant. -/
theorem tick_none_inv {s : State} (h : s.Inv) : (s.tick none).Inv := tick_inv h fun _ _ h => by simp at h

/-- Accepting a request in range keeps the invariant. -/
theorem tick_some_inv {s : State} {r : Request} (h : s.Inv) (h1 : r.addr.toNat < 2 ^ s.cfg.keyW)
    (h2 : r.op.takesAddress = true → r.addr.toNat < s.cfg.entries) : (s.tick (some r)).Inv :=
  tick_inv h fun _ r' h' _ => by
    injection h' with h'
    subst h'
    exact ⟨h1, h2⟩

theorem respond_inv {s : State} (h : s.Inv) (r : Response) : (s.respond r).Inv := by
  obtain ⟨hv, hb, hw, hq⟩ := h
  exact ⟨hv, hb, hw, hq⟩

theorem drawn_inv {s : State} (h : s.Inv) : s.drawn.Inv := by
  obtain ⟨hv, hb, hw, hq⟩ := h
  exact ⟨hv, hb, hw, hq⟩

theorem raise_inv {s : State} (h : s.Inv) (f : Fault) : (s.raise f).Inv := by
  obtain ⟨hv, hb, hw, hq⟩ := h
  cases f <;> exact ⟨hv, hb, hw, hq⟩

theorem hold_inv {s : State} (h : s.Inv) (cmd : Command) : (s.hold cmd).Inv := by
  obtain ⟨hv, hb, hw, hq⟩ := h
  exact ⟨hv, hb, hw, hq⟩

theorem setWdata_inv {s : State} (h : s.Inv) (v : Word) : (s.setWdata v).Inv := by
  obtain ⟨hv, hb, hw, hq⟩ := h
  exact ⟨hv, hb, hw, hq⟩

/-- A CONTROL write drops the presence of an address and of data, so nothing of the old mode is left. -/
theorem setControl_armControl_inv {s : State} (h : s.Inv) (c : Byte) : (s.armControl.setControl c).Inv := by
  obtain ⟨hv, hb, hw, ⟨q1, q2, q3, -, -, -⟩⟩ := h
  exact ⟨hv, hb, hw, ⟨q1, q2, q3, by simp, by simp, by simp⟩⟩

theorem clearPresence_inv {s : State} (h : s.Inv) : s.clearPresence.Inv := by
  obtain ⟨hv, hb, hw, ⟨q1, q2, q3, -, -, -⟩⟩ := h
  exact ⟨hv, hb, hw, ⟨q1, q2, q3, by simp, by simp, by simp⟩⟩

theorem setAddress_inv {s : State} (h : s.Inv) (a : Key) (h1 : a.toNat < 2 ^ s.cfg.keyW)
    (h2 : s.addrV = true → controlCsb s.control = false → controlWeb s.control = false → a.toNat < s.cfg.entries) :
    (s.setAddress a).Inv := by
  obtain ⟨hv, hb, ⟨w1, -, w3, w4, w5, w6, w7⟩, ⟨q1, q2, q3, q4, q5, -⟩⟩ := h
  exact ⟨hv, hb, ⟨w1, h1, w3, w4, w5, w6, w7⟩, ⟨q1, q2, q3, q4, q5, h2⟩⟩

theorem markAddress_inv {s : State} (h : s.Inv) (hc : s.ctrlV = true)
    (ha : controlCsb s.control = false → controlWeb s.control = false → s.address.toNat < s.cfg.entries) :
    s.markAddress.Inv := by
  obtain ⟨hv, hb, hw, ⟨q1, q2, q3, -, q5, -⟩⟩ := h
  exact ⟨hv, hb, hw, ⟨q1, q2, q3, fun _ => hc, q5, fun _ => ha⟩⟩

theorem markData_inv {s : State} (h : s.Inv) (hc : s.ctrlV = true) : s.markData.Inv := by
  obtain ⟨hv, hb, hw, ⟨q1, q2, q3, q4, -, q6⟩⟩ := h
  exact ⟨hv, hb, hw, ⟨q1, q2, q3, q4, fun _ => hc, q6⟩⟩

theorem awaitStatus_inv {s : State} (h : s.Inv) (h1 : s.cfg.frontEnd = .reg) (h2 : s.fsm ≠ .idle)
    (h3 : s.latOp = .status) : s.awaitStatus.Inv := by
  obtain ⟨hv, hb, hw, ⟨-, q2, q3, q4, q5, q6⟩⟩ := h
  exact ⟨hv, hb, hw, ⟨fun _ => ⟨h1, h2, h3⟩, q2, q3, q4, q5, q6⟩⟩

theorem awaitResult_inv {s : State} (h : s.Inv) (h1 : s.cfg.frontEnd = .ci) (h2 : s.fsm ≠ .idle) (rd : Nat)
    (hrd : rd < 2 ^ s.cfg.rdW) : (s.awaitResult rd).Inv := by
  obtain ⟨hv, hb, ⟨w1, w2, w3, w4, -, w6, w7⟩, ⟨q1, -, q3, q4, q5, q6⟩⟩ := h
  exact ⟨hv, hb, ⟨w1, w2, w3, w4, hrd, w6, w7⟩, ⟨q1, fun _ => ⟨h1, h2⟩, q3, q4, q5, q6⟩⟩

/-- The engine's cycle raises no fault and changes no parameter. -/
theorem tick_faults (s : State) (req : Option Request) :
    (s.tick req).faultMisuse = s.faultMisuse ∧ (s.tick req).faultSettle = s.faultSettle
      ∧ (s.tick req).faultAccess = s.faultAccess ∧ (s.tick req).cfg = s.cfg := by
  unfold State.tick
  rw [deliver_frame]
  unfold State.engineCycle State.executePhase State.probePhase
  split
  · split
    · split_ifs <;> exact ⟨rfl, rfl, rfl, rfl⟩
    · exact ⟨rfl, rfl, rfl, rfl⟩
  · split <;> exact ⟨rfl, rfl, rfl, rfl⟩
  · split <;> exact ⟨rfl, rfl, rfl, rfl⟩
  · exact ⟨rfl, rfl, rfl, rfl⟩

end Sys2Proof.Machine
end

