-- ==== Sys2Proof/Laws/PerInstr.lean ====
section
/-! SUPPORT. Statements made per instruction. Family `TableKey`: a command goes out on the port of its row's format, with its
row's decode key, in every configuration (spec/opcode_table.json; 30_encoding R81, R82, R84, R92). -/

namespace Sys2Proof.Laws.TableKey

/-- The format (`none` for `ER`) and the `match` value of the command's row in spec/opcode_table.json. -/
def row : Instr → Option FrontEnd × Nat
  | .tcamWrite _ _ _ => (some .ci, 0x0)
  | .tcamRead _ _ _ => (some .ci, 0x1)
  | .tcamSearch _ _ _ => (some .ci, 0x2)
  | .tcamStatus _ _ _ => (some .ci, 0x3)
  | .rdStatus => (some .reg, 0x00)
  | .wrStatus _ => (some .reg, 0x10)
  | .rdControl => (some .reg, 0x04)
  | .wrControl _ => (some .reg, 0x14)
  | .rdWdata => (some .reg, 0x08)
  | .wrWdata _ => (some .reg, 0x18)
  | .rdAddress => (some .reg, 0x0C)
  | .wrAddress _ => (some .reg, 0x1C)
  | .engWrite _ _ _ => (none, 0x0)
  | .engRead _ _ _ => (none, 0x1)
  | .engSearch _ _ _ => (none, 0x2)
  | .engStatus _ _ _ => (none, 0x3)

/-- The command's encoding has its row's port and key. -/
def Statement (i : Instr) : Prop := ∀ c : Config, (portOf (encode c i), tableKey c (encode c i)) = row i

theorem tcamWrite (opA opB : Word) (rd : Nat) : Statement (.tcamWrite opA opB rd) := fun c => by
  simp [portOf, tableKey, encode, row]

theorem tcamRead (opA opB : Word) (rd : Nat) : Statement (.tcamRead opA opB rd) := fun c => by
  simp [portOf, tableKey, encode, row]

theorem tcamSearch (opA opB : Word) (rd : Nat) : Statement (.tcamSearch opA opB rd) := fun c => by
  simp [portOf, tableKey, encode, row]

theorem tcamStatus (opA opB : Word) (rd : Nat) : Statement (.tcamStatus opA opB rd) := fun c => by
  simp [portOf, tableKey, encode, row]

theorem rdStatus : Statement (.rdStatus) := fun c => by
  simp [portOf, tableKey, encode, row]

theorem wrStatus (v : Word) : Statement (.wrStatus v) := fun c => by
  simp [portOf, tableKey, encode, row]

theorem rdControl : Statement (.rdControl) := fun c => by
  simp [portOf, tableKey, encode, row]

theorem wrControl (v : Word) : Statement (.wrControl v) := fun c => by
  simp [portOf, tableKey, encode, row]

theorem rdWdata : Statement (.rdWdata) := fun c => by
  simp [portOf, tableKey, encode, row]

theorem wrWdata (v : Word) : Statement (.wrWdata v) := fun c => by
  simp [portOf, tableKey, encode, row]

theorem rdAddress : Statement (.rdAddress) := fun c => by
  simp [portOf, tableKey, encode, row]

theorem wrAddress (v : Word) : Statement (.wrAddress v) := fun c => by
  simp [portOf, tableKey, encode, row]

theorem engWrite (addr : Key) (data : Word) (wmask : Mask) : Statement (.engWrite addr data wmask) := fun c => by
  simp [portOf, tableKey, encode, row]

theorem engRead (addr : Key) (data : Word) (wmask : Mask) : Statement (.engRead addr data wmask) := fun c => by
  simp [portOf, tableKey, encode, row]

theorem engSearch (addr : Key) (data : Word) (wmask : Mask) : Statement (.engSearch addr data wmask) := fun c => by
  simp [portOf, tableKey, encode, row]

theorem engStatus (addr : Key) (data : Word) (wmask : Mask) : Statement (.engStatus addr data wmask) := fun c => by
  simp [portOf, tableKey, encode, row]

end Sys2Proof.Laws.TableKey
end

