-- ==== Sys2Proof/Tests/Slice0.lean ====
section
/-! SUPPORT. The model's own tests. Every expected value is from 95_test_vectors (the vector is named) or from the encoding
tables of 30_encoding; the `witness_` theorems show states that meet the hypotheses of each statement. -/

namespace Sys2Proof.Tests

open Sys2Proof Sys2Proof.Machine

/-! ### Small states -/

/-- The configuration V4 of 95_test_vectors with front end `fe`. -/
def v4 (fe : FrontEnd) : Config := { Config.reference with entries := 4, frontEnd := fe }

/-- A memory that lists the four bytes of each word, from entry 0 up. -/
def listWords : Nat → List Word → Memory
  | _, [] => []
  | a, w :: ws => [(a, byteOf w 0), (a + 1, byteOf w 1), (a + 2, byteOf w 2), (a + 3, byteOf w 3)] ++ listWords (a + 4) ws

/-- A V4 instance whose first entries are full, with the words of `ws`; every register a draw left open holds 0. -/
def bench (fe : FrontEnd) (ws : List Word) : State :=
  { cfg := v4 fe, fsm := .idle, latOp := .status, latAddr := 0, latData := 0, latWmask := 0,
    matchFlags := [false, false, false, false], pma := 0, res := 0,
    value := listWords 0 ws, care := listWords 0 (ws.map fun _ => 0xFFFFFFFF),
    control := 0, wdata := 0, address := 0, ctrlV := false, addrV := false, dataV := false,
    raState := .ready, ciState := .ready, ciRd := 0, faultMisuse := false, faultSettle := false, faultAccess := false,
    slots := [], resp := none, host := [], draws := 0 }

/-- The entries of V-E9. -/
def fourWords : List Word := [0x0AAAAAAA, 0x0BBBBBBB, 0x0CCCCCCC, 0x0DDDDDDD]

/-- The register instance after CONTROL took `control`. -/
def armed (control : Byte) : State := { bench .reg fourWords with control := control, ctrlV := true }

/-- A field of the next state, where there is one. -/
def after {α : Type} (f : State → α) : Answer State → Option α
  | .next t => some (f t)
  | .fault _ => none
  | .refused _ => none

/-! ### Well-formedness: an ill-formed term for each check, and the boundary beside it -/

theorem test_wellFormed_rd :
    wellFormed Config.reference (.tcamWrite 0 0 32) = false ∧ wellFormed Config.reference (.tcamRead 0 0 32) = false
      ∧ wellFormed Config.reference (.tcamSearch 0 0 32) = false ∧ wellFormed Config.reference (.tcamStatus 0 0 32) = false
      ∧ wellFormed Config.reference (.tcamStatus 0 0 31) = true := by decide

theorem test_wellFormed_address :
    wellFormed { Config.reference with keyW := 8 } (.engWrite 0x100 0 0) = false
      ∧ wellFormed { Config.reference with keyW := 8 } (.engRead 0x100 0 0) = false
      ∧ wellFormed { Config.reference with keyW := 8 } (.engSearch 0x100 0 0) = false
      ∧ wellFormed { Config.reference with keyW := 8 } (.engStatus 0x100 0 0) = false
      ∧ wellFormed { Config.reference with keyW := 8 } (.engStatus 0xFF 0 0) = true := by decide

/-! ### Decoding: words written out from 30_encoding R81, R82, R84 -/

/-- V-C1, V-C4, V-C5, V-C6. -/
theorem test_decode_ci :
    decode Config.reference (.ci 0b00 0xF0000003 0x0DDDDDCC 1) = .ok (.tcamWrite 0xF0000003 0x0DDDDDCC 1)
      ∧ decode Config.reference (.ci 0b01 0xF0000001 0xFFFFFFFF 2) = .ok (.tcamRead 0xF0000001 0xFFFFFFFF 2)
      ∧ decode Config.reference (.ci 0b10 0xF0ABCDEF 0x12345678 3) = .ok (.tcamSearch 0xF0ABCDEF 0x12345678 3)
      ∧ decode Config.reference (.ci 0b11 0xFFFFFFFF 0xFFFFFFFF 4) = .ok (.tcamStatus 0xFFFFFFFF 0xFFFFFFFF 4) := by
  refine ⟨?_, ?_, ?_, ?_⟩ <;> rfl

/-- The eight keys of 30_encoding R88, `BASE` 0x4000. -/
theorem test_decode_rt :
    decode Config.reference (.rt false 0x4000 4 0) = .ok .rdStatus
      ∧ decode Config.reference (.rt true 0x4000 4 3) = .ok (.wrStatus 3)
      ∧ decode Config.reference (.rt false 0x4004 4 0) = .ok .rdControl
      ∧ decode Config.reference (.rt true 0x4004 4 0xF0) = .ok (.wrControl 0xF0)
      ∧ decode Config.reference (.rt false 0x4008 4 0) = .ok .rdWdata
      ∧ decode Config.reference (.rt true 0x4008 4 0x0AAAAAAA) = .ok (.wrWdata 0x0AAAAAAA)
      ∧ decode Config.reference (.rt false 0x400C 4 0) = .ok .rdAddress
      ∧ decode Config.reference (.rt true 0x400C 4 0x0BBBBBBB) = .ok (.wrAddress 0x0BBBBBBB) := by
  refine ⟨?_, ?_, ?_, ?_, ?_, ?_, ?_, ?_⟩ <;> rfl

/-- `ER {0, op, addr, data, wmask}`; V-E1 is the first. -/
theorem test_decode_er :
    decode Config.reference (.er false 0b00 2 0xCC 0b0001) = .ok (.engWrite 2 0xCC 0b0001)
      ∧ decode Config.reference (.er false 0b01 1 0 0) = .ok (.engRead 1 0 0)
      ∧ decode Config.reference (.er false 0b10 0x1234567 0 0) = .ok (.engSearch 0x1234567 0 0)
      ∧ decode Config.reference (.er false 0b11 0 0 0) = .ok (.engStatus 0 0 0) := by
  refine ⟨?_, ?_, ?_, ?_⟩ <;> rfl

/-- Every way a tuple is refused, at the boundary of its check (V-R14, V-R16, 95_test_vectors 3.7). -/
theorem test_decode_refuses :
    decode Config.reference (.rt true 0x4004 2 0xF0) = .error .badRegisterAccess
      ∧ decode Config.reference (.rt false 0x4002 4 0) = .error .badRegisterAccess
      ∧ decode Config.reference (.rt true 0x400E 4 0) = .error .badRegisterAccess
      ∧ decode Config.reference (.rt true 0x3FFF 4 0) = .error .outsideWindow
      ∧ decode Config.reference (.rt true 0x4010 4 0) = .error .outsideWindow
      ∧ decode Config.reference (.er true 0 0 0 0) = .error .inactiveRequest
      ∧ decode Config.reference (.ci 0 0 0 32) = .error .slotTooWide
      ∧ decode { Config.reference with keyW := 8 } (.er false 2 0x100 0 0) = .error .addressTooWide := by
  refine ⟨?_, ?_, ?_, ?_, ?_, ?_, ?_, ?_⟩ <;> rfl

/-- The keys of spec/opcode_table.json at the widths of their formats, and as whole bytes (log 3). -/
theorem test_decodeTableWord :
    decodeTableWord 2 0x2 = some (.tcamSearch 0 0 0) ∧ decodeTableWord 5 0x00 = some .rdStatus
      ∧ decodeTableWord 5 0x1C = some (.wrAddress 0) ∧ decodeTableWord 3 0x3 = some (.engStatus 0 0 0)
      ∧ decodeTableWord 3 0x4 = none ∧ decodeTableWord 5 0x02 = none
      ∧ decodeTableWord 8 0x03 = some (.tcamStatus 0 0 0) ∧ decodeTableWord 8 0x08 = some .rdWdata
      ∧ decodeTableWord 8 0x10 = some (.wrStatus 0) := by decide

/-- The command of a table word is what the very next step runs. -/
theorem test_withFetchWord :
    after State.fsm (step (State.withFetchWord (bench .reg []) 8 0x02)) = some .execute
      ∧ after State.ciState (step (State.withFetchWord (bench .reg []) 8 0x02)) = some .wait
      ∧ after State.ctrlV (step (State.withFetchWord (bench .ci []) 8 0x14)) = some true
      ∧ after State.latOp (step (State.withFetchWord (bench .ci []) 3 0x1)) = some .read := by decide

/-- An answer is a next state. -/
def isNext (a : Answer State) : Bool := (after (fun _ => ()) a).isSome

/-- Every key of the table runs as the first command after reset (log 4). -/
theorem test_withFetchWord_reset :
    (∀ w ∈ [0x00, 0x04, 0x08, 0x0C, 0x10, 0x14, 0x18, 0x1C], isNext (step (State.reset.withFetchWord 5 w)) = true)
      ∧ (∀ w ∈ [0, 1, 2, 3], isNext (step (State.reset.withFetchWord 2 w)) = true)
      ∧ (∀ w ∈ [0, 1, 2, 3], isNext (step (State.reset.withFetchWord 3 w)) = true) := by decide

/-! ### The Storage Bank and the encoder -/

/-- V-SW2 and V-SW4: one byte merges, an empty mask changes nothing. -/
theorem test_sbWrite_merges :
    (State.probe ((bench .reg [0x12345678]).sbWrite 0 0xAABBCCDD 0b0001) 0) = (0x123456DD, 0xFFFFFFFF)
      ∧ (State.probe ((bench .reg [0x12345678]).sbWrite 0 0xAABBCCDD 0b0000) 0) = (0x12345678, 0xFFFFFFFF) := by decide

/-- V-SW3: the care mask of a fresh entry grows by the masked bytes. -/
theorem test_sbWrite_care :
    ((bench .reg []).sbWrite 3 0xAABBCCDD 0b1010).entryCare 3 = 0xFF00FF00
      ∧ ((bench .reg []).sbWrite 3 0xAABBCCDD 0b1010).valueByte 15 = 0xAA
      ∧ ((bench .reg []).sbWrite 3 0xAABBCCDD 0b1010).valueByte 13 = 0xCC := by decide

/-- V-M1 to V-M3: bits above `KEY_W` are not compared; an entry nothing cares about matches. -/
theorem test_hit_full :
    (bench .reg [0x12345678]).hit 0 0x2345678 = true ∧ (bench .reg [0x12345678]).hit 0 0x2345679 = false
      ∧ (bench .reg [0x12345678]).hit 1 0xFFFFFFF = true := by decide

/-- V-M5 to V-M8: only the cared bytes are compared. -/
theorem test_hit_partial :
    ((bench .reg []).sbWrite 0 0xCC 0b0001).hit 0 0xABCDECC = true
      ∧ ((bench .reg []).sbWrite 0 0xCC 0b0001).hit 0 0xABCDECD = false
      ∧ ((bench .reg []).sbWrite 0 0xAABBCCDD 0b1010).hit 0 0xA11CC22 = true
      ∧ ((bench .reg []).sbWrite 0 0xAABBCCDD 0b1010).hit 0 0xB11CC22 = false := by decide

/-- V-M9 and V-M10: `KEY_W = 8`. -/
theorem test_hit_narrow :
    State.hit { bench .reg [0x12345678] with cfg := { v4 .reg with keyW := 8 } } 0 0x78 = true
      ∧ State.hit { bench .reg [0x12345678] with cfg := { v4 .reg with keyW := 8 } } 0 0x79 = false := by decide

/-- V-PE1, V-PE2, V-PE6, V-PE8, V-PE9, V-PE11, V-PE13 (bit 0 first). -/
theorem test_priorityEncode :
    priorityEncode [false, false, false, false] = 0 ∧ priorityEncode [true, false, false, false] = 0
      ∧ priorityEncode [false, false, true, true] = 2 ∧ priorityEncode [false, true, true, false] = 1
      ∧ priorityEncode [true, true, true, true] = 0 ∧ priorityEncode [true] = 0
      ∧ priorityEncode [false, false, false, true, true] = 3 := by decide

/-- V1, V3, V4, V5 and V32 of 95_test_vectors 1. -/
theorem test_pmaW :
    Config.pmaW { v4 .reg with entries := 1 } = 1 ∧ Config.pmaW { v4 .reg with entries := 3 } = 2
      ∧ Config.pmaW (v4 .reg) = 2 ∧ Config.pmaW { v4 .reg with entries := 5 } = 3
      ∧ Config.pmaW { v4 .reg with entries := 32 } = 5 := by decide

/-! ### One cycle of each command -/

/-- V-C1: accepted, with the request it forms. -/
theorem test_tcamWrite :
    after (fun t => (t.fsm, t.latAddr, t.latData, t.latWmask)) (exec (.tcamWrite 0xF0000003 0x0DDDDDCC 1) (bench .ci []))
      = some (.execute, 3, 0x0DDDDDCC, 0xF) := by decide

/-- V-C2 and V-C9: rejected, engine idle. -/
theorem test_tcamWrite_outOfRange :
    after (fun t => (t.resp, t.fsm, t.ciState)) (exec (.tcamWrite 0xF0000004 1 1) (bench .ci []))
        = some (some (.ci .outOfRange 1 none), .idle, .ready)
      ∧ after State.fsm (exec (.tcamWrite 0x1FFFFFFF 0 1) (bench .ci [])) = some .idle := by decide

/-- V-C3 and V-C4. -/
theorem test_tcamRead :
    after State.resp (exec (.tcamRead 0x00000004 0 2) (bench .ci [])) = some (some (.ci .outOfRange 2 none))
      ∧ after (fun t => (t.latOp, t.latAddr, t.latData, t.latWmask)) (exec (.tcamRead 0xF0000001 0xFFFFFFFF 2) (bench .ci []))
        = some (.read, 1, 0, 0) := by decide

/-- V-C5 and V-C8: the qualifier is not part of the key and the key is not checked. -/
theorem test_tcamSearch :
    after (fun t => (t.latOp, t.latAddr, t.ciRd)) (exec (.tcamSearch 0xF0ABCDEF 0x12345678 3) (bench .ci []))
        = some (.search, 0x0ABCDEF, 3)
      ∧ after State.latAddr (exec (.tcamSearch 0x00000010 0 5) (bench .ci [])) = some 0x10 := by decide

/-- V-C6: the operands of a Status are not looked at. -/
theorem test_tcamStatus :
    after (fun t => (t.latOp, t.latAddr, t.latWmask)) (exec (.tcamStatus 0xFFFFFFFF 0xFFFFFFFF 4) (bench .ci []))
      = some (.status, 0, 0) := by decide

/-- V-C11: a command presented to a busy adapter is presented again. -/
theorem test_ci_held :
    after (fun t => (t.host, t.fsm))
        (step { bench .ci fourWords with
          fsm := .execute, latOp := .search, ciState := .wait, host := [some (.ci 3 0 0 4)] })
      = some ([some (.ci 3 0 0 4)], .probe) := by decide

/-- P1 @19: the router delivers the PMA to `x[3]`. -/
theorem test_router :
    after (fun t => (t.slots, t.resp, t.ciState, t.fsm))
        (step { bench .ci fourWords with fsm := .response, latOp := .search, res := 2, ciState := .wait, ciRd := 3 })
      = some ([(3, 2)], some (.ci .okay 3 (some 2)), .ready, .idle) := by decide

/-- V-R13 @0 and V-R26: a Status starts whatever CONTROL holds. -/
theorem test_rdStatus :
    after (fun t => (t.fsm, t.latOp, t.raState, t.resp)) (exec .rdStatus (armed 0x01))
      = some (.execute, .status, .waitStatus, none) := by decide

/-- W3 @14: the response of a STATUS read. -/
theorem test_rdStatus_response :
    after (fun t => (t.resp, t.raState, t.fsm))
        (step { bench .reg fourWords with fsm := .response, latOp := .status, res := 1, raState := .waitStatus })
      = some (some (.reg .okay (some 1)), .ready, .idle) := by decide

/-- V-R12. -/
theorem test_wrStatus :
    after (fun t => (t.resp, t.pma, t.fsm)) (exec (.wrStatus 3) (bench .reg fourWords))
      = some (some (.reg .okay none), 0, .idle) := by decide

/-- V-R9 @1. -/
theorem test_rdControl :
    after State.resp (exec .rdControl (armed 0xAE)) = some (some (.reg .okay (some 0x000000AE))) := by decide

/-- V-R10 @0 and V-R19 @2: `v[31:8]` is dropped and the old address is forgotten. -/
theorem test_wrControl :
    after (fun t => (t.control, t.ctrlV, t.addrV)) (exec (.wrControl 0x12345602) { armed 0xF0 with addrV := true })
      = some (0x02, true, false) := by decide

/-- V-R11: no state changes but the model's own counter of draws. -/
theorem test_rdWdata_rdAddress :
    after (fun t => (t.wdata, t.address, t.control, t.fsm)) (exec .rdWdata (armed 0xAE)) = some (0, 0, 0xAE, .idle)
      ∧ after (fun t => (t.wdata, t.address, t.control, t.draws)) (exec .rdAddress (armed 0xAE))
        = some (0, 0, 0xAE, 1) := by decide

/-- V-R4 @2. -/
theorem test_wrWdata_starts_write :
    after (fun t => (t.fsm, t.latOp, t.latAddr, t.latData, t.latWmask))
        (exec (.wrWdata 0x0DDDDDCC) { armed 0xF0 with address := 3, addrV := true })
      = some (.execute, .write, 3, 0x0DDDDDCC, 0xF)
      ∧ after (fun t => (t.ctrlV, t.addrV, t.dataV))
          (exec (.wrWdata 0x0DDDDDCC) { armed 0xF0 with address := 3, addrV := true })
        = some (false, false, false) := by decide

/-- V-R7 @2: with `csb = 1` it only latches. -/
theorem test_wrWdata_latches :
    after (fun t => (t.fsm, t.wdata, t.dataV, t.addrV)) (exec (.wrWdata 5) { armed 0xF1 with address := 1, addrV := true })
      = some (.idle, 5, true, true) := by decide

/-- V-R3: address 4 is rejected and changes nothing, address 3 is latched; V-R21: the check looks at all of `v`. -/
theorem test_wrAddress_range :
    after (fun t => (t.resp, t.addrV, t.ctrlV, t.fsm)) (exec (.wrAddress 4) (armed 0xF0))
        = some (some (.reg .outOfRange none), false, true, .idle)
      ∧ after (fun t => (t.resp, t.address, t.addrV)) (exec (.wrAddress 3) (armed 0xF0))
        = some (some (.reg .okay none), 3, true)
      ∧ after State.resp (exec (.wrAddress 0x10000000) (armed 0xF0)) = some (some (.reg .outOfRange none)) := by decide

/-- V-R6 @1, V-R5 @2 and V-R8 @1: a Search, a Write whose data came first, and no check with `csb = 1`. -/
theorem test_wrAddress_starts :
    after (fun t => (t.fsm, t.latOp, t.latAddr, t.ctrlV)) (exec (.wrAddress 0xFFFFFFFF) (armed 0x02))
        = some (.execute, .search, 0xFFFFFFF, false)
      ∧ after (fun t => (t.latOp, t.latAddr, t.latData, t.latWmask))
          (exec (.wrAddress 1) { armed 0xF0 with wdata := 0x77, dataV := true })
        = some (.write, 1, 0x77, 0xF)
      ∧ after (fun t => (t.address, t.addrV, t.fsm)) (exec (.wrAddress 7) (armed 0xF1)) = some (7, true, .idle) := by decide

/-- V-R1, V-R2 and V-R25: misuse comes before the range check. -/
theorem test_misuse :
    after State.faultMisuse (exec (.wrAddress 5) (bench .reg [])) = some true
      ∧ after State.faultMisuse (exec (.wrWdata 5) (bench .reg [])) = some true
      ∧ after (fun t => (t.faultMisuse, t.resp)) (exec (.wrAddress 4) (bench .reg [])) = some (true, none) := by decide

/-- V-R14 raises BadRegisterAccess; V-R24 raises SettleViolation instead, because the settle check comes first. -/
theorem test_access_and_settle :
    after (fun t => (t.faultAccess, t.faultSettle)) (step { bench .reg [] with host := [some (.rt true 0x4004 2 0xF0)] })
        = some (true, false)
      ∧ after (fun t => (t.faultAccess, t.faultSettle))
          (step { bench .reg [] with fsm := .execute, latOp := .search, host := [some (.rt true 0x4002 2 0)] })
        = some (false, true) := by decide

/-- V-E1 @1: the commit of a masked Write, from the EXECUTE cycle. -/
theorem test_engWrite :
    after (fun t => (t.latOp, t.latAddr, t.latData, t.latWmask)) (exec (.engWrite 2 0xCC 0b0001) (bench .reg []))
        = some (.write, 2, 0xCC, 0b0001)
      ∧ after (fun t => (t.valueByte 8, t.entryCare 2, t.fsm))
          (step { bench .reg [] with fsm := .execute, latOp := .write, latAddr := 2, latData := 0xCC, latWmask := 0b0001 })
        = some (0xCC, 0x000000FF, .probe) := by decide

/-- V-E11: the EXECUTE cycle of a Read changes no entry and no flag. -/
theorem test_engRead :
    after State.latOp (exec (.engRead 1 0 0) (bench .reg fourWords)) = some .read
      ∧ after (fun t => (t.value, t.care, t.matchFlags))
          (step { bench .reg fourWords with fsm := .execute, latOp := .read, latAddr := 1 })
        = some ((bench .reg fourWords).value, (bench .reg fourWords).care, [false, false, false, false]) := by decide

/-- V-E9: the EXECUTE cycle of Search(0x0CCCCCCC), and the PROBE cycle after it. -/
theorem test_engSearch :
    after State.matchFlags (step { bench .reg fourWords with fsm := .execute, latOp := .search, latAddr := 0x0CCCCCCC })
        = some [false, false, true, false]
      ∧ after (fun t => (t.pma, t.res, t.fsm))
          (step { bench .reg fourWords with fsm := .probe, latOp := .search, matchFlags := [false, false, true, false] })
        = some (2, 2, .response) := by decide

/-- V-E10: a Status gives the stale PMA, and V-E4: a request with `csb = 1` latches nothing. -/
theorem test_engStatus :
    after (fun t => (t.res, t.pma)) (step { bench .reg fourWords with fsm := .probe, latOp := .status, pma := 2 })
        = some (2, 2)
      ∧ after (fun t => (t.fsm, t.latOp))
          (step { bench .reg fourWords with host := [some (.er true 0 3 0xFF 0xF)] }) = some (.idle, .status) := by decide

/-- The bundle of V-E1 @1, V-E2 and V-E3. -/
theorem test_bundle :
    State.bundle { bench .reg [] with fsm := .execute, latOp := .write, latWmask := 1 } = ⟨false, false, 1⟩
      ∧ State.bundle { bench .reg [] with fsm := .execute, latOp := .search, latWmask := 0xF } = ⟨false, true, 0⟩
      ∧ State.bundle { bench .reg [] with fsm := .execute, latOp := .status, latWmask := 0xF } = ⟨true, true, 0⟩
      ∧ (bench .reg []).bundle = ⟨true, true, 0⟩ := by decide

/-! ### Witnesses: states and operands that meet the hypotheses of each statement -/

theorem bench_live (fe : FrontEnd) (ws : List Word) (h : fe ≠ .both) : (bench fe ws).Live := by
  refine ⟨?_, rfl, rfl⟩
  cases fe
  · show (v4 .reg).valid = true
    decide
  · show (v4 .ci).valid = true
    decide
  · exact absurd rfl h

theorem bench_ciReady (ws : List Word) : (bench .ci ws).CiReady := ⟨bench_live _ _ (by decide), rfl, rfl, rfl⟩

theorem bench_regReady (ws : List Word) : (bench .reg ws).RegReady := ⟨bench_live _ _ (by decide), rfl, rfl, rfl⟩

theorem armed_regReady (control : Byte) : (armed control).RegReady := bench_regReady fourWords

theorem bench_settled (fe : FrontEnd) (ws : List Word) (h : fe ≠ .both) : (bench fe ws).Settled :=
  ⟨bench_live _ _ h, rfl, rfl, rfl⟩

theorem bench_quiet (fe : FrontEnd) (ws : List Word) : (bench fe ws).QuietFor 3 := by simp [State.QuietFor, bench]

/-- A V4 instance with two full entries in the EXECUTE cycle of a Write to the last entry. -/
def writing : State :=
  { bench .reg [0x555, 0x123] with fsm := .execute, latOp := .write, latAddr := 3, latData := 0x99, latWmask := 0b0101 }

theorem writing_inv : writing.Inv := by
  refine ⟨rfl, ⟨?_, ?_, ?_, ?_, ?_, ?_⟩, ⟨?_, ?_, ?_, ?_, ?_, rfl, ?_⟩, ?_, ?_, ?_, ?_, ?_, ?_⟩ <;> decide

theorem witness_DecodeEncodeRoundTrip :
    wellFormed Config.reference (.tcamWrite 0xFFFFFFFF 0 31) = true
      ∧ wellFormed { Config.reference with keyW := 8 } (.engRead 0xFF 0xFFFFFFFF 0xF) = true
      ∧ wellFormed Config.reference (.wrAddress 0xFFFFFFFF) = true := by decide

theorem witness_DecodeAcceptsOnlyEncodings :
    decode Config.reference (.rt false 0x400C 4 7) = .ok .rdAddress
      ∧ decode Config.reference (.er false 3 0xFFFFFFF 1 2) = .ok (.engStatus 0xFFFFFFF 1 2) := ⟨rfl, rfl⟩

theorem witness_StepRunsPresentedCommand :
    State.host { bench .reg [] with host := [some (.rt true 0x4004 4 2), none] } = some (.rt true 0x4004 4 2) :: [none]
      ∧ decode (bench .reg []).cfg (.rt true 0x4004 4 2) = .ok (.wrControl 2) := ⟨rfl, rfl⟩

theorem witness_InvariantAtInstantiation :
    (v4 .ci).valid = true ∧ Config.valid { v4 .reg with entries := 1, keyW := 1, base := 0 } = true
      ∧ Config.valid { v4 .reg with entries := 2 ^ 28 } = true := by decide

theorem witness_StepKeepsInvariant : writing.Inv ∧ ∃ t, step writing = .next t := ⟨writing_inv, _, rfl⟩

theorem witness_FirstSearchReturnsZero : (v4 .ci).valid = true ∧ (v4 .ci).frontEnd = .ci := by decide

theorem witness_SbWriteMergesMaskedBytes : (3 : Nat) ≠ 2 := by decide

theorem witness_CompareFlagsEveryEntry : 3 < (bench .reg fourWords).cfg.entries := by decide

theorem witness_StorageChangesOnlyInWriteExecute :
    (∃ t, step writing = .next t) ∧ writing.fsm = .execute ∧ writing.latOp = .write
      ∧ (12 / 4 = writing.latAddr.toNat ∧ writing.latWmask.getLsbD (12 % 4) = true)
      ∧ writing.latWmask.getLsbD (13 % 4) = false ∧ (11 / 4 ≠ writing.latAddr.toNat)
      ∧ ∃ i t, exec i (bench .reg fourWords) = .next t :=
  ⟨⟨_, rfl⟩, rfl, rfl, by decide, by decide, by decide, .rdControl, _, rfl⟩

theorem witness_CareOnlyGrows : ∃ t, step writing = .next t := ⟨_, rfl⟩

theorem witness_PriorityEncoderLeastIndex :
    (0 < [false, true, true].length ∧ [false, true, true].length ≤ 2 ^ 28)
      ∧ [false, true, true][1]? = some true ∧ (∀ j, j < 1 → [false, true, true][j]? = some false)
      ∧ ∀ b ∈ [false], b = false := by decide

theorem witness_SearchFindsLeastHit :
    (bench .reg fourWords).cfg.valid = true
      ∧ (bench .reg fourWords).hit 3 0x0DDDDDDD = true ∧ (∀ j, j < 3 → (bench .reg fourWords).hit j 0x0DDDDDDD = false)
      ∧ ∀ i, i < (bench .reg fourWords).cfg.entries → (bench .reg fourWords).hit i 0x0EEEEEEE = false := by decide

theorem witness_EngineAcceptance :
    (bench .ci []).Live ∧ (bench .ci []).fsm = .idle
      ∧ (State.host { bench .ci [] with host := [some (.er false 0 3 5 1)] } = [some (.er false 0 3 5 1)]
        ∧ (3 : Key).toNat < 2 ^ (bench .ci []).cfg.keyW ∧ (3 : Key).toNat < (bench .ci []).cfg.entries)
      ∧ (Op.ofCode 2).takesAddress = false
      ∧ (bench .ci []).presented = none
      ∧ State.presented { bench .ci [] with host := [some (.er true 0 3 5 1)] } = some (.er true 0 3 5 1) :=
  ⟨bench_live _ _ (by decide), rfl, by decide, rfl, rfl, rfl⟩

theorem witness_BusyEngineIgnoresRequests :
    writing.fsm ≠ .idle ∧ (0xFFFFFFF : Key).toNat < 2 ^ writing.cfg.keyW := by decide

theorem witness_TraversalTakesFourCycles :
    ∃ s t1 t2 t3 u : State, s.fsm = .idle ∧ step s = .next t1 ∧ t1.fsm ≠ .idle ∧ step t1 = .next t2 ∧ step t2 = .next t3
      ∧ step t3 = .next u :=
  ⟨{ bench .ci fourWords with host := [some (.er false 2 0x0CCCCCCC 0 0)] }, _, _, _, _, rfl, rfl,
    fun h => Fsm.noConfusion h, rfl, rfl, rfl⟩

theorem witness_EngWriteEffect :
    (bench .reg []).Settled ∧ (bench .reg []).QuietFor 3 ∧ (0 : Key).toNat < (bench .reg []).cfg.entries :=
  ⟨bench_settled _ _ (by decide), bench_quiet _ _, by decide⟩

theorem witness_EngReadEffect :
    (bench .reg fourWords).Settled ∧ (bench .reg fourWords).QuietFor 3
      ∧ (3 : Key).toNat < (bench .reg fourWords).cfg.entries :=
  ⟨bench_settled _ _ (by decide), bench_quiet _ _, by decide⟩

theorem witness_EngSearchEffect : (bench .reg fourWords).Settled ∧ (bench .reg fourWords).QuietFor 3 :=
  ⟨bench_settled _ _ (by decide), bench_quiet _ _⟩

theorem witness_EngStatusEffect : (bench .ci fourWords).Settled ∧ (bench .ci fourWords).QuietFor 3 :=
  ⟨bench_settled _ _ (by decide), bench_quiet _ _⟩

theorem witness_DirectOutOfRangeRefused :
    (bench .reg []).Live ∧ (bench .reg []).fsm = .idle ∧ (bench .reg []).cfg.entries ≤ (4 : Key).toNat :=
  ⟨bench_live _ _ (by decide), rfl, by decide⟩

theorem witness_PmaChangesOnlyInSearchProbe :
    (∃ t, step { bench .ci fourWords with fsm := .probe, latOp := .search } = .next t)
      ∧ (∃ t, step { bench .ci fourWords with fsm := .probe, latOp := .status } = .next t)
      ∧ ∃ i t, exec i (bench .reg fourWords) = .next t :=
  ⟨⟨_, rfl⟩, ⟨_, rfl⟩, .rdControl, _, rfl⟩

theorem witness_ControlStateBundle :
    writing.fsm = .execute ∧ writing.latOp = .write
      ∧ State.fsm { bench .ci [] with fsm := .execute, latOp := .search } = .execute
      ∧ State.latOp { bench .ci [] with fsm := .execute, latOp := .read } = .read
      ∧ (bench .ci []).fsm ≠ .execute := by decide

theorem witness_TcamWriteEffect :
    (bench .ci fourWords).CiReady ∧ (bench .ci fourWords).QuietFor 3
      ∧ opAddr 0xF0000003 < (bench .ci fourWords).cfg.entries :=
  ⟨bench_ciReady _, bench_quiet _ _, by decide⟩

theorem witness_TcamReadEffect :
    (bench .ci []).CiReady ∧ (bench .ci []).QuietFor 3 ∧ opAddr 0xF0000000 < (bench .ci []).cfg.entries :=
  ⟨bench_ciReady _, bench_quiet _ _, by decide⟩

theorem witness_TcamSearchEffect : (bench .ci fourWords).CiReady ∧ (bench .ci fourWords).QuietFor 3 :=
  ⟨bench_ciReady _, bench_quiet _ _⟩

theorem witness_TcamStatusEffect : (bench .ci []).CiReady ∧ (bench .ci []).QuietFor 3 :=
  ⟨bench_ciReady _, bench_quiet _ _⟩

theorem witness_TcamOutOfRangeRejected :
    (bench .ci []).CiReady ∧ (bench .ci []).cfg.entries ≤ opAddr 0xF0000004 := ⟨bench_ciReady _, by decide⟩

theorem witness_BusyCommandIsHeld :
    (bench .ci []).cfg.frontEnd = .ci ∧ 31 < 2 ^ (bench .ci []).cfg.rdW
      ∧ (∃ t, step { bench .ci [] with fsm := .execute, latOp := .search, host := [none] } = .next t)
      ∧ ∃ t, step { bench .ci [] with ciState := .wait, host := [none] } = .next t :=
  ⟨rfl, by decide, ⟨_, rfl⟩, _, rfl⟩

/-- An instruction instance in the EXECUTE cycle of a Search, with a second command presented. -/
def waiting : State :=
  { bench .ci fourWords with
    fsm := .execute, latOp := .search, ciState := .wait, ciRd := 1, host := [some (.ci 3 0 0 31)] }

theorem witness_HeldCommandReachesAcceptance :
    waiting.Live ∧ waiting.cfg.frontEnd = .ci ∧ waiting.fsm = .execute ∧ waiting.ciState = .wait
      ∧ 31 < 2 ^ waiting.cfg.rdW ∧ waiting.host = some (.ci 3 0 0 31) :: [] :=
  ⟨⟨rfl, rfl, rfl⟩, rfl, rfl, rfl, by decide, rfl⟩

/-- The one hypothesis of WrControlEffect, WrStatusEffect, RdControlEffect and WriteOnlyReadsReturnDraws. -/
theorem witness_WrControlEffect : (bench .reg []).RegReady := bench_regReady _

theorem witness_WrStatusEffect : (bench .reg fourWords).RegReady := bench_regReady _

theorem witness_RdControlEffect : (armed 0xAE).RegReady := armed_regReady _

theorem witness_WriteOnlyReadsReturnDraws : (armed 0x00).RegReady := armed_regReady _

/-- The first value out of range in Write mode, and in Search mode. -/
theorem witness_WrAddressOutOfRangeRejected :
    ((armed 0xF0).RegReady ∧ (armed 0xF0).ctrlV = true ∧ (armed 0xF0).control[0] = false
        ∧ (armed 0xF0).cfg.entries ≤ (4 : Word).toNat ∧ (armed 0xF0).control[1] = false)
      ∧ ((armed 0x02).RegReady ∧ (armed 0x02).control[0] = false ∧ (armed 0x02).cfg.entries ≤ (4 : Word).toNat
        ∧ (armed 0x02).control[1] = true) :=
  ⟨⟨armed_regReady _, rfl, rfl, by decide, rfl⟩, armed_regReady _, rfl, by decide, rfl⟩

theorem witness_MisuseRaisesFault : (bench .reg []).RegReady ∧ (bench .reg []).ctrlV = false := ⟨bench_regReady _, rfl⟩

/-- One state for each of the four clauses; address 3 is the last in range. -/
theorem witness_WrAddressEffect :
    ((armed 0xF1).RegReady ∧ (armed 0xF1).ctrlV = true ∧ (armed 0xF1).control[0] = true)
      ∧ ((armed 0x02).control[0] = false ∧ (armed 0x02).control[1] = true)
      ∧ (State.RegReady { armed 0xF0 with dataV := true } ∧ (armed 0xF0).control[0] = false
        ∧ (armed 0xF0).control[1] = false ∧ (3 : Word).toNat < (armed 0xF0).cfg.entries)
      ∧ (armed 0xF0).dataV = false :=
  ⟨⟨armed_regReady _, rfl, rfl⟩, ⟨rfl, rfl⟩, ⟨armed_regReady 0xF0, rfl, rfl, by decide⟩, rfl⟩

theorem witness_WrWdataEffect :
    (State.RegReady { armed 0xF0 with addrV := true } ∧ (armed 0xF0).ctrlV = true ∧ (armed 0xF0).control[0] = false
        ∧ (armed 0xF0).control[1] = false)
      ∧ ((armed 0xF0).RegReady ∧ (armed 0xF0).addrV = false) :=
  ⟨⟨armed_regReady 0xF0, rfl, rfl, rfl⟩, armed_regReady _, rfl⟩

theorem witness_RdStatusEffect : (bench .reg fourWords).RegReady ∧ (bench .reg fourWords).QuietFor 3 :=
  ⟨bench_regReady _, bench_quiet _ _⟩

/-- The first and the last address of the window. -/
theorem witness_PrematureTransactionFaults :
    writing.cfg.frontEnd = .reg ∧ writing.fsm ≠ .idle
      ∧ writing.InWindow (.rt false 0x4000 4 0) ∧ writing.InWindow (.rt true 0x400F 1 0)
      ∧ (∃ t, step { writing with host := [none] } = .next t)
      ∧ ∃ t, step { bench .reg [] with raState := .waitStatus, host := [none] } = .next t :=
  ⟨rfl, by decide, ⟨by decide, by decide⟩, ⟨by decide, by decide⟩, ⟨_, rfl⟩, _, rfl⟩

/-- A Search about to be triggered, with the next transaction `n` cycles after. -/
def triggering (n : Nat) : State :=
  { armed 0x02 with host := List.replicate n none ++ some (.rt false 0x4000 4 0) :: [] }

theorem triggering_starts (n : Nat) : ∃ t,
    exec (.wrAddress 0x10) (triggering n) = .next t ∧ t.fsm ≠ .idle := by
  have hr : (triggering n).RegReady := armed_regReady 0x02
  have e : exec (.wrAddress 0x10) (triggering n) = State.regCycle _ _ := rfl
  rw [hr.regCycle, if_neg (show ¬ (triggering n).ctrlV = false from (by decide : ¬ true = false)),
    if_neg (show ¬ controlCsb (triggering n).control = true from (by decide : ¬ controlCsb 0x02 = true)),
    if_pos (show controlWeb (triggering n).control = true from (by decide : controlWeb 0x02 = true)),
    tick_some_idle hr.2.2.1 rfl] at e
  exact ⟨_, e, fun h => absurd (show Fsm.execute = .idle from h) (by decide)⟩

theorem witness_SettleDelayAfterTrigger (n : Nat) :
    (triggering n).RegReady ∧ (triggering n).Inv
      ∧ (∃ t, exec (.wrAddress 0x10) (triggering n) = .next t ∧ t.fsm ≠ .idle)
      ∧ (triggering n).host = List.replicate n none ++ some (.rt false 0x4000 4 0) :: []
      ∧ (triggering n).InWindow (.rt false 0x4000 4 0) := by
  refine ⟨armed_regReady 0x02, ⟨(armed_regReady 0x02).1.1, ⟨?_, ?_, ?_, ?_, ?_, ?_⟩, ⟨?_, ?_, ?_, ?_, ?_, rfl, ?_⟩, ?_, ?_, ?_, ?_, ?_, ?_⟩,
    triggering_starts n, rfl, ⟨Nat.le_refl _, Nat.lt_add_of_pos_right (by decide)⟩⟩
  all_goals first | decide | (simp only [triggering]; decide)

/-- A transaction that starts no operation and raises no fault. -/
theorem witness_SettleDelayAfterTrigger_idle :
    (triggering 0).Inv ∧ (triggering 0).RegReady
      ∧ after (fun t => (t.fsm, t.raised)) (exec (.wrControl 0x02) (triggering 0)) = some (.idle, none) :=
  ⟨(witness_SettleDelayAfterTrigger 0).2.1, armed_regReady 0x02, by decide⟩

/-- A wrong width at a right offset, and the last offset of the window. -/
theorem witness_BadAccessRaisesFault :
    (bench .reg []).RegReady
      ∧ ((bench .reg []).cfg.base ≤ 0x4004 ∧ 0x4004 < (bench .reg []).cfg.base + 0x10 ∧ 2 ≠ 4)
      ∧ ((bench .reg []).cfg.base ≤ 0x400F ∧ 0x400F < (bench .reg []).cfg.base + 0x10
        ∧ 0x400F - (bench .reg []).cfg.base ∉ [0x0, 0x4, 0x8, 0xC]) :=
  ⟨bench_regReady _, by decide, by decide⟩

theorem witness_DisabledChipSelectStartsNothing :
    (armed 0xF1).RegReady ∧ (armed 0xF1).ctrlV = true ∧ (armed 0xF1).control[0] = true := ⟨armed_regReady _, rfl, rfl⟩

theorem witness_RegisterSearchEffect :
    (armed 0x02).RegReady ∧ (armed 0x02).QuietFor 3 ∧ (armed 0x02).ctrlV = true ∧ (armed 0x02).control[0] = false
      ∧ (armed 0x02).control[1] = true :=
  ⟨armed_regReady _, bench_quiet .reg fourWords, rfl, rfl, rfl⟩

/-- An instance ready for the last value of a register Write. -/
theorem witness_RegisterWriteEffect :
    (State.RegReady { armed 0xF0 with addrV := true, address := 3 }
        ∧ State.QuietFor { armed 0xF0 with addrV := true, address := 3 } 3
        ∧ (armed 0xF0).ctrlV = true ∧ (armed 0xF0).control[0] = false ∧ (armed 0xF0).control[1] = false
        ∧ (3 : Key).toNat < (armed 0xF0).cfg.entries)
      ∧ (State.RegReady { armed 0xF0 with dataV := true } ∧ State.QuietFor { armed 0xF0 with dataV := true } 3
        ∧ (3 : Word).toNat < (armed 0xF0).cfg.entries) :=
  ⟨⟨armed_regReady 0xF0, bench_quiet .reg fourWords, rfl, rfl, rfl, by decide⟩, armed_regReady 0xF0,
    bench_quiet .reg fourWords, by decide⟩

theorem witness_FaultedStateStops :
    (bench .reg []).cfg.valid = true ∧ State.faultMisuse { bench .reg [] with faultMisuse := true } = true
      ∧ State.faultSettle { bench .reg [] with faultSettle := true } = true
      ∧ State.faultAccess { bench .reg [] with faultAccess := true } = true := by decide

/-- Each flag raised by a step. -/
theorem witness_FaultFlagsHaveCauses :
    after State.faultMisuse (step { bench .reg [] with host := [some (.rt true 0x400C 4 4)] }) = some true
      ∧ after State.faultMisuse (step { bench .reg [] with host := [some (.rt true 0x4008 4 4)] }) = some true
      ∧ after State.faultSettle (step { writing with host := [some (.rt false 0x4000 4 0)] }) = some true
      ∧ after State.faultAccess (step { bench .reg [] with host := [some (.rt false 0x400F 4 0)] }) = some true := by decide

/-- Each constraint broken alone, by the least it can be. -/
theorem witness_BadConfigurationRefused :
    Config.valid { v4 .reg with entries := 0 } = false ∧ Config.valid { v4 .reg with entries := 5, keyW := 2 } = false
      ∧ Config.valid { v4 .reg with entries := 1, keyW := 0 } = false ∧ Config.valid { v4 .reg with keyW := 29 } = false
      ∧ Config.valid { v4 .reg with base := 0x4008 } = false ∧ Config.valid { v4 .reg with peEn := false } = false
      ∧ Config.valid (v4 .both) = false := by decide

theorem witness_AbsentFrontEndRefused :
    (bench .reg []).Live ∧ (bench .reg []).cfg.frontEnd ≠ .ci ∧ (bench .ci []).Live
      ∧ (bench .ci []).cfg.frontEnd ≠ .reg :=
  ⟨bench_live _ _ (by decide), by decide, bench_live _ _ (by decide), by decide⟩

theorem witness_ParametersNeverChange :
    (∃ t, step writing = .next t) ∧ ∃ i t, exec i writing = .next t := ⟨⟨_, rfl⟩, .engStatus 0 0 0, _, rfl⟩

/-- A delivery to slot 31, the last, and a cycle that delivers nothing. -/
theorem witness_RouterWritesOneSlot :
    (∃ t, step { bench .ci fourWords with fsm := .response, ciState := .wait, ciRd := 31 } = .next t)
      ∧ ∃ t, step (bench .ci fourWords) = .next t := ⟨⟨_, rfl⟩, _, rfl⟩

/-- A memory that lists more bytes of `value` than were written. -/
theorem witness_HeldDrawsNeverCompared :
    writing.BankInv
      ∧ ∀ a b, Memory.find a writing.value = some b → Memory.find a (writing.value ++ [(8, 0xFF), (15, 0xAB)]) = some b := by
  refine ⟨writing_inv.2.1, fun a b h => ?_⟩
  have hm : ∀ x ∈ writing.value, Memory.find x.1 (writing.value ++ [(8, 0xFF), (15, 0xAB)]) = some x.2 := by decide
  exact hm (a, b) (Memory.mem_of_find h)

/-- The register instance of AdaptersAgreeOnSearch, with its nine cycles presented. -/
def registerTwin (v : Word) : State :=
  { bench .reg fourWords with
    host := [some (.rt true 0x4004 4 0x02), some (.rt true 0x400C 4 v), none, none, none, some (.rt false 0x4000 4 0),
      none, none, none] }

theorem witness_AdaptersAgreeOnSearch (v : Word) :
    (bench .ci fourWords).CiReady ∧ (bench .ci fourWords).QuietFor 3 ∧ (registerTwin v).RegReady
      ∧ (registerTwin v).cfg.entries = (bench .ci fourWords).cfg.entries
      ∧ (registerTwin v).cfg.keyW = (bench .ci fourWords).cfg.keyW
      ∧ (bench .ci fourWords).SameBank (registerTwin v)
      ∧ (registerTwin v).host = [some (.rt true ((registerTwin v).cfg.base + 0x4) 4 0x02),
        some (.rt true ((registerTwin v).cfg.base + 0xC) 4 v), none, none, none,
        some (.rt false (registerTwin v).cfg.base 4 0), none, none, none] :=
  ⟨bench_ciReady _, bench_quiet _ _, bench_regReady fourWords, rfl, rfl, fun _ => ⟨rfl, rfl⟩, rfl⟩

end Sys2Proof.Tests
end

/-! The state family (10_state): the invariant along every cycle, `pma`, the held draws, presentation, instantiation and the
absent front end. The layers are the decoder, the cycle of each port, the engine's `pma`, one lane of a comparison, and then
the statements. -/

namespace Sys2Proof.Machine

/-! ### The decoder -/

/-- What a configuration decodes is one of its own commands (30_encoding R81, R84; log 20). -/
theorem wellFormed_of_decode {c : Config} {cmd : Command} {i : Instr} (h : decode c cmd = .ok i) :
    wellFormed c i = true := by
  cases cmd with
  | ci funct opA opB rd =>
    simp only [decode] at h
    split_ifs at h with hrd
    cases h
    unfold decodeCi
    split <;> simpa [wellFormed] using hrd
  | rt we a sz v =>
    simp only [decode] at h
    split_ifs at h
    split at h
    · next j hj =>
      cases h
      unfold decodeRt at hj
      split_ifs at hj <;> cases hj <;> rfl
    · cases h
  | er csb op addr data wmask =>
    simp only [decode] at h
    split_ifs at h with _ haddr
    cases h
    unfold decodeEr
    split <;> simpa [wellFormed] using haddr

/-! ### What a cycle of each port keeps -/

theorem State.Inv.valid {s : State} (h : s.Inv) : s.cfg.valid = true := by
  obtain ⟨hv, -⟩ := h
  exact hv

theorem State.Inv.address_lt_two_pow {s : State} (h : s.Inv) : s.address.toNat < 2 ^ s.cfg.keyW := by
  obtain ⟨-, -, ⟨-, hwidth, -⟩, -⟩ := h
  exact hwidth

/-- An address that waits for its data in Write mode has passed the range check (42_register_adapter R171, R173). -/
theorem State.Inv.address_lt_entries {s : State} (h : s.Inv) (haddrV : s.addrV = true)
    (hcsb : controlCsb s.control = false) (hweb : controlWeb s.control = false) : s.address.toNat < s.cfg.entries := by
  obtain ⟨-, -, -, ⟨-, -, -, -, -, hrange⟩⟩ := h
  exact hrange haddrV hcsb hweb

theorem advance_inv {s : State} (h : s.Inv) : s.advance.Inv := by
  obtain ⟨hv, hb, hw, hq⟩ := h
  exact ⟨hv, hb, hw, hq⟩

theorem idleCycle_inv {s t : State} (h : s.Inv) (ht : s.idleCycle = .next t) : t.Inv := by
  obtain ⟨-, ht⟩ := whenLive_next.1 ht
  cases ht
  exact tick_none_inv h

/-- A command whose slot fits the port, and whose request names an entry once its range check has passed. -/
theorem ciCycle_inv {s t : State} {cmd : Command} {r : Request} {rd : Nat} {c : Bool} {a : Nat} (h : s.Inv)
    (ht : s.ciCycle cmd r rd c a = .next t) (hrd : rd < 2 ^ s.cfg.rdW) (hcsb : r.csb = false)
    (hkey : r.addr.toNat < 2 ^ s.cfg.keyW)
    (haddr : (c = true → a < s.cfg.entries) → r.op.takesAddress = true → r.addr.toNat < s.cfg.entries) : t.Inv := by
  obtain ⟨-, hfe, ⟨-, rfl⟩ | ⟨-, -, -, rfl⟩ | ⟨hacc, ha, rfl⟩⟩ := ciCycle_next ht
  · exact hold_inv (tick_none_inv h) cmd
  · exact respond_inv (tick_none_inv h) _
  · have hidle : s.fsm = .idle := by
      simp only [State.ciAccepts, Bool.and_eq_true, beq_iff_eq] at hacc
      exact hacc.1
    have hinv := tick_some_inv h hkey (haddr ha)
    rw [tick_some_idle hidle hcsb] at hinv ⊢
    exact awaitResult_inv hinv hfe (by simp) rd hrd

/-- A transaction the register adapter accepts finds the adapter ready. -/
theorem State.RegReady.of_regAccepts {s : State} (hl : s.Live) (hf : s.cfg.frontEnd = .reg)
    (h : s.regAccepts = true) : s.RegReady := by
  simp only [State.regAccepts, Bool.and_eq_true, beq_iff_eq] at h
  exact ⟨hl, hf, h.1, h.2⟩

/-- A register transaction keeps the invariant if its dispatch by a ready adapter does. -/
theorem regCycle_inv {s t : State} {k : Answer State} (h : s.Inv) (ht : s.regCycle k = .next t)
    (hk : s.RegReady → k = .next t → t.Inv) : t.Inv := by
  obtain ⟨hl, hf, ⟨-, rfl⟩ | ⟨hacc, ht⟩⟩ := regCycle_next ht
  · exact raise_inv (tick_none_inv h) _
  · exact hk (.of_regAccepts hl hf hacc) ht

/-- A directly driven request of the port's width. -/
theorem engCycle_inv {s t : State} {r : Request} (h : s.Inv) (ht : s.engCycle r = .next t)
    (hkey : r.addr.toNat < 2 ^ s.cfg.keyW) : t.Inv := by
  obtain ⟨-, rfl, haddr⟩ := engCycle_next ht
  refine tick_inv h fun hidle r' hr' _ => ?_
  cases hr'
  exact ⟨hkey, haddr hidle⟩

/-! ### The register transactions that start an operation -/

theorem execRdStatus_inv {s t : State} (h : s.Inv) (ht : execRdStatus s = .next t) : t.Inv := by
  refine regCycle_inv h ht fun ⟨_, hf, hidle, _⟩ hk => ?_
  cases hk
  have hinv := tick_some_inv (r := statusRequest) h (Nat.two_pow_pos _) (by simp [statusRequest, Op.takesAddress])
  rw [tick_some_idle hidle rfl] at hinv ⊢
  exact awaitStatus_inv hinv hf (by simp) rfl

/-- The Write a WDATA access starts goes to ADDRESS, which the invariant keeps in range while `addr_v` is set. -/
theorem execWrWdata_inv {v : Word} {s t : State} (h : s.Inv) (ht : execWrWdata v s = .next t) : t.Inv := by
  refine regCycle_inv h ht fun ⟨_, _, hidle, _⟩ hk => ?_
  split_ifs at hk with hctrl hstart <;> cases hk
  · exact raise_inv (tick_none_inv h) _
  · obtain ⟨hcsb, hweb, haddrV⟩ := hstart
    have hinv := tick_some_inv (r := regWriteRequest s.address v s.control) h h.address_lt_two_pow
      fun _ => h.address_lt_entries haddrV hcsb hweb
    exact respond_inv (setWdata_inv (clearPresence_inv hinv) v) _
  · have hinv := setWdata_inv (tick_none_inv h) v
    refine respond_inv (markData_inv hinv ?_) _
    rw [tick_none_idle hidle]
    simpa using hctrl

/-- Where WR.ADDRESS starts a Search, the key needs no range; where it keeps or starts a Write, the check has passed. -/
theorem execWrAddress_inv {v : Word} {s t : State} (h : s.Inv) (ht : execWrAddress v s = .next t) : t.Inv := by
  refine regCycle_inv h ht fun ⟨_, _, hidle, _⟩ hk => ?_
  have hv := h.valid
  have hwidth : (keyBits s.cfg.keyW v).toNat < 2 ^ s.cfg.keyW := keyBits_toNat_lt _ v
  -- Latching an address and marking it present, in range if the mode is Write.
  have hlatch (hctrl : ¬ s.ctrlV = false)
      (hrange : controlCsb s.control = false → controlWeb s.control = false →
        (keyBits s.cfg.keyW v).toNat < s.cfg.entries) :
      ((s.tick none).setAddress (keyBits s.cfg.keyW v)).markAddress.Inv := by
    have hinv := tick_none_inv h
    rw [tick_none_idle hidle] at hinv ⊢
    exact markAddress_inv (setAddress_inv hinv _ hwidth fun _ => hrange) (by simpa using hctrl) hrange
  -- Starting an operation at the address, which leaves no presence flag set.
  have hstart (r : Request) (hr : r.addr = keyBits s.cfg.keyW v)
      (hrange : r.op.takesAddress = true → r.addr.toNat < s.cfg.entries) :
      ((s.tick (some r)).clearPresence.setAddress (keyBits s.cfg.keyW v)).Inv := by
    have hinv := clearPresence_inv (tick_some_inv h (by rwa [hr]) hrange)
    obtain ⟨-, -, -, hcfg⟩ := tick_faults s (some r)
    exact setAddress_inv hinv _ (by simpa [hcfg] using hwidth) (by simp)
  split_ifs at hk with hctrl hcsb hweb hout hdata <;> cases hk
  · exact raise_inv (tick_none_inv h) _
  · exact respond_inv (hlatch hctrl (by simp [hcsb])) _
  · exact respond_inv (hstart _ rfl (by simp [regSearchRequest, Op.takesAddress])) _
  · exact respond_inv (tick_none_inv h) _
  · exact respond_inv (hstart _ rfl fun _ => keyBits_lt_entries hv (not_le.1 hout)) _
  · exact respond_inv (hlatch hctrl fun _ _ => keyBits_lt_entries hv (not_le.1 hout)) _

/-! ### Every meaning and every step -/

/-- A TCAM.WRITE or TCAM.READ operand in range is the entry address its request carries. -/
theorem keyBits_lt_of_opAddr_lt {c : Config} {opA : Word} (hv : c.valid = true) (h : opAddr opA < c.entries) :
    (keyBits c.keyW opA).toNat < c.entries := by
  rwa [keyBits_eq_opAddr hv h]

/-- The meaning of a command that fits the ports keeps the invariant. -/
theorem exec_inv {i : Instr} {s t : State} (h : s.Inv) (hw : wellFormed s.cfg i = true) (ht : exec i s = .next t) :
    t.Inv := by
  have hv := h.valid
  cases i with
  | tcamWrite opA opB rd =>
    exact ciCycle_inv h ht (by simpa [wellFormed] using hw) rfl (keyBits_toNat_lt _ opA)
      fun hc _ => keyBits_lt_of_opAddr_lt hv (hc rfl)
  | tcamRead opA opB rd =>
    exact ciCycle_inv h ht (by simpa [wellFormed] using hw) rfl (keyBits_toNat_lt _ opA)
      fun hc _ => keyBits_lt_of_opAddr_lt hv (hc rfl)
  | tcamSearch opA opB rd =>
    exact ciCycle_inv h ht (by simpa [wellFormed] using hw) rfl (keyBits_toNat_lt _ opA) fun _ hop => by cases hop
  | tcamStatus opA opB rd =>
    exact ciCycle_inv h ht (by simpa [wellFormed] using hw) rfl (Nat.two_pow_pos _) fun _ hop => by cases hop
  | engWrite addr data wmask | engRead addr data wmask | engSearch addr data wmask | engStatus addr data wmask =>
    exact engCycle_inv h ht (by simpa [wellFormed] using hw)
  | rdStatus => exact execRdStatus_inv h ht
  | wrStatus v | rdControl =>
    exact regCycle_inv h ht fun _ hk => by cases hk; exact respond_inv (tick_none_inv h) _
  | wrControl v =>
    exact regCycle_inv h ht fun _ hk => by
      cases hk; exact respond_inv (setControl_armControl_inv (tick_none_inv h) _) _
  | rdWdata | rdAddress =>
    exact regCycle_inv h ht fun _ hk => by cases hk; exact respond_inv (drawn_inv (tick_none_inv h)) _
  | wrWdata v => exact execWrWdata_inv h ht
  | wrAddress v => exact execWrAddress_inv h ht

/-- The cycle of a tuple that is no command keeps the invariant. -/
theorem undecodedCycle_inv {e : DecodeError} {s t : State} (h : s.Inv) (ht : undecodedCycle e s = .next t) : t.Inv := by
  cases e with
  | outsideWindow | inactiveRequest => exact idleCycle_inv h ht
  | badRegisterAccess =>
    exact regCycle_inv h ht fun _ hk => by cases hk; exact raise_inv (tick_none_inv h) _
  | slotTooWide | addressTooWide => exact absurd (whenLive_next.1 ht).2 (by simp)

/-- Settles O7: a step is an idle cycle, the meaning of a command that fits the ports, or the cycle of a tuple that
is no command. -/
theorem stepKeepsInvariant : Obligations.StepKeepsInvariant := by
  unfold Obligations.StepKeepsInvariant
  intro s t h ht
  unfold step at ht
  split at ht
  · exact idleCycle_inv (advance_inv h) ht
  · split at ht
    · next hdec => exact exec_inv (advance_inv h) (wellFormed_of_decode hdec) ht
    · exact undecodedCycle_inv (advance_inv h) ht

/-! ### `pma` -/

/-- A request with `csb = 1` is not accepted (40_control_engine R102). -/
theorem tick_inactive_idle {s : State} {r : Request} (h : s.fsm = .idle) (hr : r.csb = true) :
    s.tick (some r) = s.quiet := by
  simp [State.tick, State.engineCycle, h, hr, deliver_of_ne_response (s := s) (by simp [h])]

/-- The engine's cycle writes `pma` in the PROBE cycle of a Search and in no other (40_control_engine R114). -/
theorem tick_pma (s : State) (req : Option Request) :
    (s.tick req).pma = if s.fsm = .probe ∧ s.latOp = .search then priorityEncode s.matchFlags else s.pma := by
  cases hf : s.fsm with
  | idle =>
    rcases req with _ | r
    · simp [tick_none_idle hf]
    · cases hr : r.csb with
      | false => simp [tick_some_idle hf hr]
      | true => simp [tick_inactive_idle hf hr]
  | execute => simp [tick_execute req hf]
  | probe =>
    rw [tick_probe req hf]
    cases ho : s.latOp <;> simp [State.probePhase, ho]
  | response =>
    rw [tick_response req hf, deliver_frame]
    simp

/-- Settles O24: a step and a meaning alike are one cycle of the engine, as far as `pma` goes. -/
theorem pmaChangesOnlyInSearchProbe : Obligations.PmaChangesOnlyInSearchProbe := by
  unfold Obligations.PmaChangesOnlyInSearchProbe
  intro s t h
  have htick : ∃ req, EngineEq t (s.tick req) := by
    rcases h with h | ⟨i, h⟩
    · exact (step_tick h).2
    · exact (exec_tick h).2
  obtain ⟨req, -, -, -, -, -, -, -, hpma, -⟩ := htick
  rw [hpma, tick_pma]
  exact ⟨fun hp => if_pos hp, fun hp => if_neg hp⟩

/-! ### The held draws -/

/-- A lane compares its value only where the entry cares about it (20_memory R52). -/
theorem hitLane_congr {v v' care k kmask : Byte} (h : care ≠ 0 → v = v') :
    hitLane v care k kmask = hitLane v' care k kmask := by
  by_cases hc : care = 0
  · simp [hitLane, hc]
  · rw [h hc]

/-- A byte something cares about was written (10_state R31). -/
theorem State.BankInv.find_value_of_careByte_ne {s : State} (h : s.BankInv) {a : Nat} (hc : s.careByte a ≠ 0) :
    ∃ b, Memory.find a s.value = some b := by
  obtain ⟨-, -, -, -, -, hwritten⟩ := h
  cases hf : Memory.find a s.care with
  | none => exact absurd (by simp [State.careByte, hf]) hc
  | some c => exact Option.isSome_iff_exists.1 (hwritten _ (Memory.mem_of_find hf))

/-- Settles O55: a lane that nothing cares about is not compared, and one that something cares about was written. -/
theorem heldDrawsNeverCompared : Obligations.HeldDrawsNeverCompared := by
  unfold Obligations.HeldDrawsNeverCompared
  intro s m i k hb hm
  have hlane : ∀ a, s.careByte a ≠ 0 → State.valueByte { s with value := m } a = s.valueByte a := by
    intro a hc
    obtain ⟨b, hfind⟩ := hb.find_value_of_careByte_ne hc
    simp [State.valueByte, hfind, hm a b hfind]
  unfold State.hit
  congr 1
  funext l
  exact hitLane_congr (hlane (4 * i + l))

/-! ### Presentation, instantiation, the absent front end -/

/-- A presented tuple that is a command is run in the cycle it is presented in. -/
theorem step_of_decode {s : State} {cmd : Command} {i : Instr} (hp : s.presented = some cmd)
    (hdec : decode s.cfg cmd = .ok i) : step s = exec i s.advance := by
  simp only [step, hp, hdec]

/-- Settles O4. -/
theorem stepRunsPresentedCommand : Obligations.StepRunsPresentedCommand := by
  unfold Obligations.StepRunsPresentedCommand
  intro s cmd rest i hhost hdec
  have hp : s.presented = some cmd := by simp [State.presented, hhost]
  have hadv : s.advance = { s with host := rest } := by simp [State.advance, hhost]
  rw [step_of_decode hp hdec, hadv]

/-- Settles O5: every field named is a constant of `State.instantiate`, and the empty `care` list reads 0 everywhere. -/
theorem instantiationState : Obligations.InstantiationState := by
  unfold Obligations.InstantiationState
  intro c
  have hcare (i : Nat) : (State.instantiate c).entryCare i = wordOf 0 0 0 0 := rfl
  exact ⟨rfl, rfl, rfl, fun i => (hcare i).trans (by decide), rfl, rfl, rfl, rfl, rfl, rfl⟩

/-- The Storage Bank lists nothing, every draw is cut to its register, and neither adapter waits. -/
theorem instantiate_inv {c : Config} (hv : c.valid = true) : (State.instantiate c).Inv := by
  obtain ⟨-, -, hentries, -⟩ := (valid_iff c).1 hv
  have hbank : (State.instantiate c).BankInv :=
    ⟨Memory.wf_nil _, Memory.wf_nil _, by simp [State.instantiate], by simp [State.instantiate],
      by simp [State.instantiate], by simp [State.instantiate]⟩
  have hwidth : (State.instantiate c).WidthInv :=
    ⟨lowBits_toNat_lt _ _, lowBits_toNat_lt _ _, hentries, lowBits_toNat_lt _ _,
      Nat.mod_lt _ (Nat.two_pow_pos _), by simp [State.instantiate], .nil⟩
  have hseq : (State.instantiate c).SequencerInv := by simp [State.SequencerInv, State.instantiate]
  exact ⟨hv, hbank, hwidth, hseq⟩

/-- Settles O6: the reference configuration of reset is a valid one. -/
theorem invariantAtInstantiation : Obligations.InvariantAtInstantiation := by
  unfold Obligations.InvariantAtInstantiation
  exact ⟨fun _ hv => instantiate_inv hv, instantiate_inv (by decide)⟩

/-- A custom-instruction command where the instruction adapter is absent (log 10). -/
theorem ciCycle_absent {s : State} (hl : s.Live) (hf : s.cfg.frontEnd ≠ .ci) (cmd : Command) (r : Request) (rd : Nat)
    (c : Bool) (a : Nat) : s.ciCycle cmd r rd c a = .refused .frontEndAbsent := by
  rw [State.ciCycle, hl.whenLive, if_pos hf]

/-- A register transaction where the register adapter is absent (log 10). -/
theorem regCycle_absent {s : State} (hl : s.Live) (hf : s.cfg.frontEnd ≠ .reg) (k : Answer State) :
    s.regCycle k = .refused .frontEndAbsent := by
  rw [State.regCycle, hl.whenLive, if_pos hf]

/-- Settles O51: each of the twelve commands is a cycle of its own adapter's port. -/
theorem absentFrontEndRefused : Obligations.AbsentFrontEndRefused := by
  unfold Obligations.AbsentFrontEndRefused
  intro s v opA opB rd hl
  constructor
  · intro hf
    have h := ciCycle_absent hl hf
    simp only [List.forall_mem_cons]
    exact ⟨h _ _ _ _ _, h _ _ _ _ _, h _ _ _ _ _, h _ _ _ _ _, by simp⟩
  · intro hf
    have h := regCycle_absent hl hf
    simp only [List.forall_mem_cons]
    exact ⟨h _, h _, h _, h _, h _, h _, h _, h _, by simp⟩

end Sys2Proof.Machine

/-! The memory family (20_memory): the Storage Bank's Write, its match predicate and its comparison, and that care only grows.
The layers are a word by its bytes, an entry by its lanes, one Write of an entry, the match predicate and one cycle of the bank,
each with the statements it carries. -/

namespace Sys2Proof.Machine

/-! ### A word by its bytes -/

theorem byteOf_wordOf (f : Nat → Byte) {k : Nat} (hk : k < 4) : byteOf (wordOf (f 0) (f 1) (f 2) (f 3)) k = f k := by
  obtain ⟨h0, h1, h2, h3⟩ := wordOf_inj.1 (wordOf_byteOf (wordOf (f 0) (f 1) (f 2) (f 3)))
  interval_cases k <;> assumption

/-- Words are equal exactly when they agree on every byte lane. -/
theorem eq_iff_byteOf_eq {v w : Word} : v = w ↔ ∀ k < 4, byteOf v k = byteOf w k := by
  refine ⟨fun h k _ => by rw [h], fun h => ?_⟩
  rw [← wordOf_byteOf v, ← wordOf_byteOf w, wordOf_inj]
  exact ⟨h 0 (by omega), h 1 (by omega), h 2 (by omega), h 3 (by omega)⟩

@[simp] theorem byteOf_zero (k : Nat) : byteOf 0 k = 0 := BitVec.extractLsb'_zero

@[simp] theorem byteOf_and (v w : Word) (k : Nat) : byteOf (v &&& w) k = byteOf v k &&& byteOf w k :=
  BitVec.extractLsb'_and

@[simp] theorem byteOf_or (v w : Word) (k : Nat) : byteOf (v ||| w) k = byteOf v k ||| byteOf w k :=
  BitVec.extractLsb'_or

@[simp] theorem byteOf_xor (v w : Word) (k : Nat) : byteOf (v ^^^ w) k = byteOf v k ^^^ byteOf w k :=
  BitVec.extractLsb'_xor

theorem byteOf_not (w : Word) {k : Nat} (hk : k < 4) : byteOf (~~~w) k = ~~~byteOf w k := by
  apply BitVec.eq_of_getLsbD_eq
  intro j hj
  simp only [BitVec.getLsbD_not, getLsbD_byteOf]
  simp [hj, show 8 * k + j < 32 by omega]

theorem byteOf_bytemask (m : Mask) {k : Nat} (hk : k < 4) : byteOf (bytemask m) k = lane m k :=
  byteOf_wordOf (lane m) hk

/-! ### An entry by its lanes -/

theorem byteOf_entryValue (s : State) (i : Nat) {k : Nat} (hk : k < 4) :
    byteOf (s.entryValue i) k = s.valueByte (4 * i + k) :=
  byteOf_wordOf (fun k => s.valueByte (4 * i + k)) hk

theorem byteOf_entryCare (s : State) (i : Nat) {k : Nat} (hk : k < 4) :
    byteOf (s.entryCare i) k = s.careByte (4 * i + k) :=
  byteOf_wordOf (fun k => s.careByte (4 * i + k)) hk

theorem entryCare_congr {s t : State} (h : t.care = s.care) (i : Nat) : t.entryCare i = s.entryCare i := by
  simp only [State.entryCare, State.careByte, h]

/-! ### One Write of an entry -/

/-- A lane of the merge of R51 takes the new byte where the mask selects it. -/
theorem merge_lane (x y : Byte) (m : Mask) (k : Nat) :
    (x &&& ~~~ lane m k) ||| (y &&& lane m k) = if m.getLsbD k = true then y else x := by
  apply BitVec.eq_of_getLsbD_eq
  intro j hj
  simp only [BitVec.getLsbD_or, BitVec.getLsbD_and, BitVec.getLsbD_not, getLsbD_lane]
  cases m.getLsbD k <;> simp [hj]

/-- A lane of the mask makes its byte fully cared where the mask selects it. -/
theorem or_lane (x : Byte) (m : Mask) (k : Nat) : x ||| lane m k = if m.getLsbD k = true then 0xFF else x := by
  have hones : (0xFF : Byte) = BitVec.allOnes 8 := rfl
  rw [hones, lane, hones]
  split_ifs
  · exact BitVec.or_allOnes
  · exact BitVec.or_zero

theorem sbWrite_entryValue_same (s : State) (i : Nat) (d : Word) (m : Mask) :
    (s.sbWrite i d m).entryValue i = (s.entryValue i &&& ~~~ bytemask m) ||| (d &&& bytemask m) := by
  rw [eq_iff_byteOf_eq]
  intro k hk
  have hdiv : (4 * i + k) / 4 = i := by omega
  have hmod : (4 * i + k) % 4 = k := by omega
  simp only [byteOf_or, byteOf_and, byteOf_not _ hk, byteOf_bytemask m hk, byteOf_entryValue _ i hk, merge_lane,
    State.sbWrite_valueByte, hdiv, hmod, true_and]

theorem sbWrite_entryCare_same (s : State) (i : Nat) (d : Word) (m : Mask) :
    (s.sbWrite i d m).entryCare i = s.entryCare i ||| bytemask m := by
  rw [eq_iff_byteOf_eq]
  intro k hk
  have hdiv : (4 * i + k) / 4 = i := by omega
  have hmod : (4 * i + k) % 4 = k := by omega
  simp only [byteOf_or, byteOf_bytemask m hk, byteOf_entryCare _ i hk, or_lane, State.sbWrite_careByte, hdiv, hmod,
    true_and]

theorem sbWrite_entryValue_of_ne (s : State) {i j : Nat} (h : j ≠ i) (d : Word) (m : Mask) :
    (s.sbWrite i d m).entryValue j = s.entryValue j := by
  rw [eq_iff_byteOf_eq]
  intro k hk
  have hdiv : (4 * j + k) / 4 ≠ i := by omega
  simp only [byteOf_entryValue _ j hk, State.sbWrite_valueByte, hdiv, false_and, if_false]

theorem sbWrite_entryCare_of_ne (s : State) {i j : Nat} (h : j ≠ i) (d : Word) (m : Mask) :
    (s.sbWrite i d m).entryCare j = s.entryCare j := by
  rw [eq_iff_byteOf_eq]
  intro k hk
  have hdiv : (4 * j + k) / 4 ≠ i := by omega
  simp only [byteOf_entryCare _ j hk, State.sbWrite_careByte, hdiv, false_and, if_false]

/-- Settles O9. -/
theorem sbWriteMergesMaskedBytes : Obligations.SbWriteMergesMaskedBytes := by
  unfold Obligations.SbWriteMergesMaskedBytes
  intro s i d m
  exact ⟨sbWrite_entryValue_same s i d m, sbWrite_entryCare_same s i d m,
    fun j hj => ⟨sbWrite_entryValue_of_ne s hj d m, sbWrite_entryCare_of_ne s hj d m⟩⟩

/-! ### The match predicate -/

/-- The first test of a lane is implied by the second (log 19). -/
theorem hitLane_iff (v care k kmask : Byte) : hitLane v care k kmask = true ↔ (v ^^^ k) &&& care &&& kmask = 0 := by
  simp only [hitLane, Bool.or_eq_true, beq_iff_eq, or_iff_right_iff_imp]
  intro h
  rw [BitVec.and_assoc, h]
  exact BitVec.and_zero

/-- The match predicate of 20_memory R52, on the whole word. -/
theorem hit_iff (s : State) (i : Nat) (k : Key) :
    s.hit i k = true ↔ (s.entryValue i ^^^ zext32 k) &&& s.entryCare i &&& onesWord s.cfg.keyW = 0 := by
  have hlanes : ([0, 1, 2, 3] : List Nat) = List.range 4 := rfl
  rw [eq_iff_byteOf_eq, State.hit, hlanes]
  simp only [List.all_eq_true, List.mem_range, hitLane_iff]
  refine forall₂_congr fun l hl => ?_
  simp only [byteOf_and, byteOf_xor, byteOf_zero, byteOf_entryValue s i hl, byteOf_entryCare s i hl]

/-- Settles O10: the lanes of the comparison are the bytes of the word. -/
theorem hitComparesCaredKeyBits : Obligations.HitComparesCaredKeyBits := by
  unfold Obligations.HitComparesCaredKeyBits
  exact hit_iff

/-- Flag `i` of a comparison is the match predicate of entry `i` (20_memory R53). -/
theorem sbCompare_getElem? (s : State) (k : Key) {i : Nat} (hi : i < s.cfg.entries) :
    (s.sbCompare k)[i]? = some (s.hit i k) := by
  simp [State.sbCompare, hi]

/-- Settles O11. -/
theorem compareFlagsEveryEntry : Obligations.CompareFlagsEveryEntry := by
  unfold Obligations.CompareFlagsEveryEntry
  intro s k
  refine ⟨length_sbCompare s k, fun i hi => ?_⟩
  rw [sbCompare_getElem? s k hi, Option.some_inj, hit_iff]

/-! ### One cycle of the bank -/

/-- What a cycle can do to the Storage Bank: the EXECUTE cycle of a Write is one `SbWrite` of the latched request, and every
other cycle leaves it alone (20_memory R71). -/
theorem tick_bank (s : State) (req : Option Request) :
    (s.fsm = .execute ∧ s.latOp = .write
      ∧ (s.tick req).value = (s.sbWrite s.latAddr.toNat s.latData s.latWmask).value
      ∧ (s.tick req).care = (s.sbWrite s.latAddr.toNat s.latData s.latWmask).care)
    ∨ (¬ (s.fsm = .execute ∧ s.latOp = .write) ∧ (s.tick req).value = s.value ∧ (s.tick req).care = s.care) := by
  cases hf : s.fsm with
  | idle =>
    rcases req with _ | r
    · simp [tick_none_idle hf]
    · cases hr : r.csb with
      | false => simp [tick_some_idle hf hr]
      | true => simp [tick_inactive_idle hf hr]
  | execute =>
    rw [tick_execute req hf]
    cases ho : s.latOp <;> simp [State.executePhase, ho]
  | probe =>
    rw [tick_probe req hf]
    cases ho : s.latOp <;> simp [State.probePhase, ho]
  | response =>
    rw [tick_response req hf, deliver_frame]
    simp

/-- A Write clears no care bit: the written entry's care is joined with the mask, every other entry's is kept. -/
theorem sbWrite_care_grows (s : State) (a : Nat) (d : Word) (m : Mask) (i : Nat) :
    s.entryCare i &&& (s.sbWrite a d m).entryCare i = s.entryCare i := by
  by_cases hi : i = a
  · subst hi
    rw [sbWrite_entryCare_same]
    ext j hj
    simp only [BitVec.getElem_and, BitVec.getElem_or]
    exact inf_sup_self
  · rw [sbWrite_entryCare_of_ne s hi, BitVec.and_self]

/-- Settles O13: a step is one cycle of the engine, and of all cycles only the EXECUTE cycle of a Write touches the bank. -/
theorem careOnlyGrows : Obligations.CareOnlyGrows := by
  unfold Obligations.CareOnlyGrows
  intro s t h i
  obtain ⟨-, req, -, -, -, -, -, -, -, -, -, -, hcare⟩ := step_tick h
  rw [entryCare_congr hcare]
  rcases tick_bank s req with ⟨-, -, -, hwrite⟩ | ⟨-, -, hkeep⟩
  · rw [entryCare_congr hwrite]
    exact sbWrite_care_grows s _ _ _ i
  · rw [entryCare_congr hkeep, BitVec.and_self]

end Sys2Proof.Machine

/-! The encoding family (30_encoding): the round trip, that the decoder accepts nothing but encodings, and the worked words. The
layers are what the decoder accepts of each format, what a selected command's encoding is, and then the statements. -/

namespace Sys2Proof.Machine

/-! ### What the decoder accepts of each format -/

/-- `CI`: every `funct` is defined, so only `rd` can be refused (30_encoding R81, R89; log 20). -/
theorem decode_ci_eq_ok_iff {c : Config} {funct : BitVec 2} {opA opB : Word} {rd : Nat} {i : Instr} :
    decode c (.ci funct opA opB rd) = .ok i ↔ rd < 2 ^ c.rdW ∧ decodeCi funct opA opB rd = i := by
  simp only [decode]
  split_ifs with hrd <;> simp [hrd]

/-- `RT`: a whole word at one of the window's offsets that selects a register (30_encoding R82, R88). -/
theorem decode_rt_eq_ok_iff {c : Config} {we : Bool} {a sz : Nat} {v : Word} {i : Instr} :
    decode c (.rt we a sz v) = .ok i ↔
      ∃ off < 16, a = c.base + off ∧ sz = 4 ∧ decodeRt we off v = some i := by
  constructor
  · intro h
    simp only [decode] at h
    split_ifs at h with hwin
    unfold Config.windowEnd at hwin
    refine ⟨a - c.base, by omega, by omega, by omega, ?_⟩
    split at h
    · next hi => rw [hi, Except.ok.inj h]
    · cases h
  · rintro ⟨off, hoff, rfl, rfl, hi⟩
    have hwin : c.base + off < c.windowEnd := Nat.add_lt_add_left hoff c.base
    simp [decode, hwin, hi]

/-- `ER`: an active request whose address fits the port (30_encoding R84, R91; log 20). -/
theorem decode_er_eq_ok_iff {c : Config} {csb : Bool} {op : BitVec 2} {addr : Key} {data : Word} {wmask : Mask}
    {i : Instr} : decode c (.er csb op addr data wmask) = .ok i ↔
      csb = false ∧ addr.toNat < 2 ^ c.keyW ∧ decodeEr op addr data wmask = i := by
  simp only [decode]
  split_ifs <;> simp [*]

/-! ### The encoding of a selected command -/

/-- The operation a code names has that code (30_encoding R84). -/
theorem Op.code_ofCode (k : BitVec 2) : (Op.ofCode k).code = k := by
  revert k
  decide

theorem encode_decodeCi (c : Config) (funct : BitVec 2) (opA opB : Word) (rd : Nat) :
    encode c (decodeCi funct opA opB rd) = .ci funct opA opB rd := by
  conv_rhs => rw [← Op.code_ofCode funct]
  unfold decodeCi
  cases Op.ofCode funct <;> rfl

theorem encode_decodeEr (c : Config) (op : BitVec 2) (addr : Key) (data : Word) (wmask : Mask) :
    encode c (decodeEr op addr data wmask) = .er false op addr data wmask := by
  conv_rhs => rw [← Op.code_ofCode op]
  unfold decodeEr
  cases Op.ofCode op <;> rfl

/-- The register an offset selects is encoded at that offset, without the value of a read (30_encoding R88; log 26). -/
theorem encode_of_decodeRt (c : Config) {we : Bool} {off : Nat} {v : Word} {i : Instr} (h : decodeRt we off v = some i) :
    encode c i = Command.clean (.rt we (c.base + off) 4 v) := by
  unfold decodeRt at h
  iterate 4
    split at h
    · subst_vars
      cases h
      cases we <;> rfl
  cases h

/-! ### The statements -/

/-- Settles O1: what a format accepts holds of an encoding by well-formedness, and its selector selects the command back. -/
theorem decodeEncodeRoundTrip : Obligations.DecodeEncodeRoundTrip := by
  unfold Obligations.DecodeEncodeRoundTrip
  intro c i h
  cases i with
  | tcamWrite _ _ _ | tcamRead _ _ _ | tcamSearch _ _ _ | tcamStatus _ _ _ =>
    exact decode_ci_eq_ok_iff.2 ⟨of_decide_eq_true h, rfl⟩
  | rdStatus | wrStatus _ => exact decode_rt_eq_ok_iff.2 ⟨0x0, by decide, rfl, rfl, rfl⟩
  | rdControl | wrControl _ => exact decode_rt_eq_ok_iff.2 ⟨0x4, by decide, rfl, rfl, rfl⟩
  | rdWdata | wrWdata _ => exact decode_rt_eq_ok_iff.2 ⟨0x8, by decide, rfl, rfl, rfl⟩
  | rdAddress | wrAddress _ => exact decode_rt_eq_ok_iff.2 ⟨0xC, by decide, rfl, rfl, rfl⟩
  | engWrite _ _ _ | engRead _ _ _ | engSearch _ _ _ | engStatus _ _ _ =>
    exact decode_er_eq_ok_iff.2 ⟨rfl, of_decide_eq_true h, rfl⟩

/-- Settles O2: what a format accepts fixes every field but a read's value, and the encoding puts each back. -/
theorem decodeAcceptsOnlyEncodings : Obligations.DecodeAcceptsOnlyEncodings := by
  unfold Obligations.DecodeAcceptsOnlyEncodings
  intro c cmd i h
  refine ⟨wellFormed_of_decode h, ?_⟩
  cases cmd with
  | ci funct opA opB rd =>
    obtain ⟨-, rfl⟩ := decode_ci_eq_ok_iff.1 h
    exact (encode_decodeCi c funct opA opB rd).symm
  | rt we a sz v =>
    obtain ⟨off, -, rfl, rfl, hi⟩ := decode_rt_eq_ok_iff.1 h
    exact (encode_of_decodeRt c hi).symm
  | er csb op addr data wmask =>
    obtain ⟨rfl, -, rfl⟩ := decode_er_eq_ok_iff.1 h
    exact (encode_decodeEr c op addr data wmask).symm

/-- Settles O3: each accepted word is the encoding of its command, and the two refused accesses are evaluated. -/
theorem specWordsDecode : Obligations.SpecWordsDecode := by
  unfold Obligations.SpecWordsDecode
  have hword := decodeEncodeRoundTrip Config.reference
  exact ⟨hword (.tcamWrite 0xF0000003 0x0DDDDDCC 1) rfl, hword (.tcamSearch 0x00ABCDEF 0 3) rfl,
    hword (.wrControl 0xF0) rfl, hword (.wrAddress 0x0BBBBBBB) rfl, hword .rdStatus rfl, hword (.engWrite 2 0xCC 1) rfl,
    rfl, rfl⟩

end Sys2Proof.Machine

/-! The control-engine family (40_control_engine): acceptance, the four cycles of a traversal, the effect of each operation
driven directly, the Storage Bank's frame and the Control State bundle. The layers are the cycle of the `ER` port, the
sequencer, one cycle of a byte of the bank and a whole traversal, each with the statements it carries. -/

namespace Sys2Proof.Machine

/-! ### The cycle of the `ER` port -/

/-- A decoded request is driven into the engine whole, the operation being the one its code names (30_encoding R84). -/
theorem exec_decodeEr (op : BitVec 2) (addr : Key) (data : Word) (wmask : Mask) (s : State) :
    exec (decodeEr op addr data wmask) s
      = s.engCycle { csb := false, op := Op.ofCode op, addr := addr, data := data, wmask := wmask } := by
  unfold decodeEr
  cases Op.ofCode op <;> rfl

/-- An active request of the port's width is one engine cycle under it. -/
theorem step_of_active {s : State} {op : BitVec 2} {addr : Key} {data : Word} {wmask : Mask}
    (hp : s.presented = some (.er false op addr data wmask)) (hkey : addr.toNat < 2 ^ s.cfg.keyW) :
    step s = s.advance.engCycle { csb := false, op := Op.ofCode op, addr := addr, data := data, wmask := wmask } := by
  rw [step_of_decode hp (decode_er_eq_ok_iff.2 ⟨rfl, hkey, rfl⟩), exec_decodeEr]

/-- A cycle in which nothing is presented. -/
theorem step_of_presented_none {s : State} (hp : s.presented = none) : step s = s.advance.idleCycle := by
  simp only [step, hp]

/-- A request with `csb = 1` is as good as none (40_control_engine R102). -/
theorem step_of_inactive {s : State} {op : BitVec 2} {addr : Key} {data : Word} {wmask : Mask}
    (hp : s.presented = some (.er true op addr data wmask)) : step s = s.advance.idleCycle := by
  simp [step, hp, decode, undecodedCycle]

/-- A busy engine takes its cycle as if nothing were presented (40_control_engine R103). -/
theorem engCycle_of_busy {s : State} (h : s.fsm ≠ .idle) (r : Request) : s.engCycle r = s.idleCycle := by
  have hready : ¬ (s.ready ∧ r.op.takesAddress ∧ s.cfg.entries ≤ r.addr.toNat) := by simp [State.ready, h]
  rw [State.engCycle, if_neg hready, tick_busy _ h, State.idleCycle]

/-- An idle engine latches an active request that names an entry where it must (40_control_engine R102, R109). -/
theorem engCycle_of_idle {s : State} {r : Request} (hl : s.Live) (hidle : s.fsm = .idle) (hr : r.csb = false)
    (ha : r.op.takesAddress = true → r.addr.toNat < s.cfg.entries) : s.engCycle r = .next (s.quiet.latch r) := by
  have hin : ¬ (s.ready ∧ r.op.takesAddress ∧ s.cfg.entries ≤ r.addr.toNat) := fun ⟨_, hop, hle⟩ =>
    absurd (ha hop) (not_lt.2 hle)
  rw [State.engCycle, hl.whenLive, if_neg hin, tick_some_idle hidle hr]

/-- An idle engine refuses a Write or Read of no entry (40_control_engine R109). -/
theorem engCycle_out_of_range {s : State} {r : Request} (hl : s.Live) (hidle : s.fsm = .idle)
    (hop : r.op.takesAddress = true) (haddr : s.cfg.entries ≤ r.addr.toNat) :
    s.engCycle r = .refused .engineAddressOutOfRange := by
  have hready : s.ready = true := by simp [State.ready, hidle]
  rw [State.engCycle, hl.whenLive, if_pos ⟨hready, hop, haddr⟩]

/-- An idle cycle of a live, idle engine only takes the host's presentation and gives no response. -/
theorem idleCycle_of_idle {s : State} (hl : s.Live) (hidle : s.fsm = .idle) : s.idleCycle = .next s.quiet := by
  rw [State.idleCycle, hl.whenLive, tick_none_idle hidle]

/-- Taking the host's presentation keeps a state live. -/
theorem State.Live.advance {s : State} (hl : s.Live) : s.advance.Live := hl

/-- Settles O16: a request with `csb = 1` and no request at all are the same idle cycle. -/
theorem engineAcceptance : Obligations.EngineAcceptance := by
  unfold Obligations.EngineAcceptance
  constructor
  · intro s op addr data wmask rest hl hidle hhost hkey ha
    have hp : s.presented = some (.er false op addr data wmask) := by simp [State.presented, hhost]
    have hadv : s.advance = { s with host := rest } := by simp [State.advance, hhost]
    rw [step_of_active hp hkey, engCycle_of_idle hl.advance hidle rfl ha, hadv]
    rfl
  · intro s hl hidle hp
    have hstep : step s = s.advance.idleCycle := by
      rcases hp with hp | ⟨_, _, _, _, hp⟩
      · exact step_of_presented_none hp
      · exact step_of_inactive hp
    rw [hstep, idleCycle_of_idle hl.advance hidle]
    rfl

/-- The cycle of a busy engine in which a request is presented is an idle one (40_control_engine R102, R103). -/
theorem step_of_busy {s : State} {csb : Bool} {op : BitVec 2} {addr : Key} {data : Word} {wmask : Mask}
    (hbusy : s.fsm ≠ .idle) (hp : s.presented = some (.er csb op addr data wmask)) (hkey : addr.toNat < 2 ^ s.cfg.keyW) :
    step s = s.advance.idleCycle := by
  cases csb with
  | true => exact step_of_inactive hp
  | false => exact (step_of_active hp hkey).trans (engCycle_of_busy (s := s.advance) hbusy _)

/-- Settles O17: both steps are the idle cycle of what is left once the head is taken. -/
theorem busyEngineIgnoresRequests : Obligations.BusyEngineIgnoresRequests := by
  unfold Obligations.BusyEngineIgnoresRequests
  intro s csb op addr data wmask rest hbusy hkey
  have hrequest := step_of_busy (s := { s with host := some (.er csb op addr data wmask) :: rest }) hbusy rfl hkey
  have hnone := step_of_presented_none (s := { s with host := none :: rest }) rfl
  exact hrequest.trans hnone.symm

/-- Settles O23. -/
theorem directOutOfRangeRefused : Obligations.DirectOutOfRangeRefused := by
  unfold Obligations.DirectOutOfRangeRefused
  intro s addr data wmask hl hidle haddr
  exact ⟨engCycle_out_of_range hl hidle rfl haddr, engCycle_out_of_range hl hidle rfl haddr⟩

/-! ### The sequencer -/

/-- The state after a busy one, whatever is presented (40_control_engine R101, R104). -/
def Fsm.afterBusy : Fsm → Fsm
  | .execute => .probe
  | .probe => .response
  | .idle | .response => .idle

/-- The engine's cycle leaves IDLE for EXECUTE or not at all, and leaves every busy state at once (40_control_engine R101). -/
theorem tick_fsm (s : State) (req : Option Request) :
    (s.tick req).fsm = s.fsm.afterBusy ∨ (s.fsm = .idle ∧ (s.tick req).fsm = .execute) := by
  cases hf : s.fsm with
  | idle =>
    rcases req with _ | r
    · exact .inl (by rw [tick_none_idle hf]; exact hf)
    · cases hr : r.csb with
      | false => exact .inr ⟨rfl, by rw [tick_some_idle hf hr]; rfl⟩
      | true => exact .inl (by rw [tick_inactive_idle hf hr]; exact hf)
  | execute => exact .inl (by rw [tick_execute req hf]; rfl)
  | probe => exact .inl (by rw [tick_probe req hf]; rfl)
  | response => exact .inl (by rw [tick_response req hf]; rfl)

/-- A step out of IDLE that starts an operation enters EXECUTE. -/
theorem step_fsm_of_idle {s t : State} (h : step s = .next t) (hidle : s.fsm = .idle) (hleft : t.fsm ≠ .idle) :
    t.fsm = .execute := by
  obtain ⟨-, req, -, hfsm, -⟩ := step_tick h
  rcases tick_fsm s req with hnext | ⟨-, hnext⟩
  · exact absurd (hfsm.trans hnext) (by rw [hidle]; exact hleft)
  · exact hfsm.trans hnext

/-- A step of a busy engine moves on, whatever is presented. -/
theorem step_fsm_of_busy {s t : State} {f : Fsm} (h : step s = .next t) (hf : s.fsm = f) (hbusy : f ≠ .idle) :
    t.fsm = f.afterBusy := by
  obtain ⟨-, req, -, hfsm, -⟩ := step_tick h
  subst hf
  rcases tick_fsm s req with hnext | ⟨hidle, -⟩
  · exact hfsm.trans hnext
  · exact absurd hidle hbusy

/-- Settles O18: the four states in turn; `done` and `ready` are read off them. -/
theorem traversalTakesFourCycles : Obligations.TraversalTakesFourCycles := by
  unfold Obligations.TraversalTakesFourCycles
  intro s t1 t2 t3 u hidle h1 hleft h2 h3 h4
  have hexecute : t1.fsm = .execute := step_fsm_of_idle h1 hidle hleft
  have hprobe : t2.fsm = .probe := step_fsm_of_busy h2 hexecute (by decide)
  have hresponse : t3.fsm = .response := step_fsm_of_busy h3 hprobe (by decide)
  have hback : u.fsm = .idle := step_fsm_of_busy h4 hresponse (by decide)
  simp [State.done, State.ready, hexecute, hprobe, hresponse, hback]

/-- Settles O25. -/
theorem controlStateBundle : Obligations.ControlStateBundle := by
  unfold Obligations.ControlStateBundle
  intro s
  refine ⟨fun hf ho => ?_, fun hf ho => ?_, fun hf ho => ?_, fun hf => ?_⟩
  · simp only [State.bundle, hf, ho]
  · simp only [State.bundle, hf, ho]
  · rcases ho with ho | ho <;> simp only [State.bundle, hf, ho]
  · cases hs : s.fsm with
    | execute => exact absurd hs hf
    | idle | probe | response => simp only [State.bundle, hs]

/-! ### One cycle of a byte of the bank -/

theorem valueByte_congr {s t : State} (h : t.value = s.value) (a : Nat) : t.valueByte a = s.valueByte a := by
  simp only [State.valueByte, h]

theorem careByte_congr {s t : State} (h : t.care = s.care) (a : Nat) : t.careByte a = s.careByte a := by
  simp only [State.careByte, h]

/-- A step and a meaning alike are one cycle of the engine under some request. -/
theorem exists_tick_of_answer {s t : State} (h : step s = .next t ∨ ∃ i, exec i s = .next t) :
    ∃ req, EngineEq t (s.tick req) := by
  rcases h with h | ⟨i, h⟩
  · exact (step_tick h).2
  · exact (exec_tick h).2

/-- Settles O12: of all cycles only the EXECUTE cycle of a Write touches the bank, and it is one `SbWrite` of the latch. -/
theorem storageChangesOnlyInWriteExecute : Obligations.StorageChangesOnlyInWriteExecute := by
  unfold Obligations.StorageChangesOnlyInWriteExecute
  intro s t h a
  obtain ⟨req, -, -, -, -, -, -, -, -, -, hvalue, hcare⟩ := exists_tick_of_answer h
  rw [valueByte_congr hvalue, careByte_congr hcare]
  rcases tick_bank s req with ⟨hf, ho, hv, hc⟩ | ⟨hno, hv, hc⟩
  · rw [valueByte_congr hv, careByte_congr hc, State.sbWrite_valueByte, State.sbWrite_careByte]
    simp only [hf, ho, true_and]
    exact ⟨fun hsel => ⟨if_pos hsel, if_pos hsel⟩, fun hsel => ⟨if_neg hsel, if_neg hsel⟩⟩
  · exact ⟨fun ⟨hf, ho, _⟩ => absurd ⟨hf, ho⟩ hno, fun _ => ⟨valueByte_congr hv a, careByte_congr hc a⟩⟩

/-! ### A whole traversal -/

/-- `s` with `n` quiet cycles gone by and the engine in state `f`. -/
def State.waited (s : State) (n : Nat) (f : Fsm) : State := { s with fsm := f, resp := none, host := s.host.drop n }

/-- The EXECUTE cycle's effect is on neither the response nor what the host presents. -/
theorem executePhase_waited (s : State) (n : Nat) (f : Fsm) :
    (s.waited n f).executePhase = s.executePhase.waited n f := by
  obtain ⟨_, _, op, _⟩ := s
  cases op <;> rfl

/-- Nor is the PROBE cycle's. -/
theorem probePhase_waited (s : State) (n : Nat) (f : Fsm) :
    (s.waited n f).probePhase = s.probePhase.waited n f := by
  obtain ⟨_, _, op, _⟩ := s
  cases op <;> rfl

theorem goto_waited (s : State) (n : Nat) (f g : Fsm) : (s.waited n f).goto g = s.waited n g := rfl

/-- One quiet cycle more. -/
theorem advance_quiet_waited (s : State) (n : Nat) (f : Fsm) :
    (s.waited n f).advance.quiet = s.waited (n + 1) f := by
  simp [State.waited, State.advance, State.quiet]

/-- Three quiet cycles of an operation no adapter waits for are its two phases and nothing else (40_control_engine R104). -/
theorem afterResponse_waited {s : State} (n : Nat) (f : Fsm) (hra : s.raState = .ready) (hci : s.ciState = .ready) :
    (s.waited n f).afterExecute.afterProbe.afterResponse = s.executePhase.probePhase.waited (n + 3) .idle := by
  have hexecute : (s.waited n f).afterExecute = s.executePhase.waited (n + 1) .probe := by
    rw [State.afterExecute, advance_quiet_waited, executePhase_waited, goto_waited]
  have hprobe : (s.executePhase.waited (n + 1) .probe).afterProbe = s.executePhase.probePhase.waited (n + 2) .response := by
    rw [State.afterProbe, advance_quiet_waited, probePhase_waited, goto_waited]
  rw [hexecute, hprobe, State.afterResponse, deliver_of_ready, advance_quiet_waited, goto_waited]
  · simp [State.waited, hra]
  · simp [State.waited, hci]

/-- A request driven into a settled block runs its whole traversal: the latch, then the two phases of its operation. -/
theorem traversal_of_engCycle {i : Instr} {s : State} {r : Request} (hi : exec i s = s.engCycle r) (hs : s.Settled)
    (hq : s.QuietFor 3) (hr : r.csb = false) (ha : r.op.takesAddress = true → r.addr.toNat < s.cfg.entries) :
    ∃ t1 t2 t3, Traversal i s t1 t2 t3 ((s.latch r).executePhase.probePhase.waited 3 s.fsm) := by
  obtain ⟨hl, hidle, hra, hci⟩ := hs
  have haccept : exec i s = .next ((s.latch r).waited 0 .execute) := hi.trans (engCycle_of_idle hl hidle hr ha)
  have hlive : ((s.latch r).waited 0 .execute).Live := State.Live.latch (s := s.quiet) hl ha
  obtain ⟨h2, h3, h4⟩ := traverse hlive rfl hq
  rw [afterResponse_waited (s := s.latch r) 0 .execute hra hci, ← hidle] at h4
  exact ⟨_, _, _, haccept, h2, h3, h4, rfl, rfl, rfl, hidle⟩

/-- Settles O19. -/
theorem engWriteEffect : Obligations.EngWriteEffect := by
  unfold Obligations.EngWriteEffect
  intro s addr data wmask hs hq haddr
  exact traversal_of_engCycle (r := ⟨false, .write, addr, data, wmask⟩) rfl hs hq rfl fun _ => haddr

/-- Settles O20. -/
theorem engReadEffect : Obligations.EngReadEffect := by
  unfold Obligations.EngReadEffect
  intro s addr data wmask hs hq haddr
  exact traversal_of_engCycle (r := ⟨false, .read, addr, data, wmask⟩) rfl hs hq rfl fun _ => haddr

/-- Settles O21: a Search takes no address, so any key passes. -/
theorem engSearchEffect : Obligations.EngSearchEffect := by
  unfold Obligations.EngSearchEffect
  intro s key data wmask hs hq
  exact traversal_of_engCycle (r := ⟨false, .search, key, data, wmask⟩) rfl hs hq rfl fun hop => by cases hop

/-- Settles O22: a Status takes no address either. -/
theorem engStatusEffect : Obligations.EngStatusEffect := by
  unfold Obligations.EngStatusEffect
  intro s addr data wmask hs hq
  exact traversal_of_engCycle (r := ⟨false, .status, addr, data, wmask⟩) rfl hs hq rfl fun hop => by cases hop

end Sys2Proof.Machine

/-! The priority-encoder family (41_priority_encoder): the answer on any vector of flags, then on the one `SbCompare` answers,
each with its statement. -/

namespace Sys2Proof.Machine

/-- The lowest set index wins (41_priority_encoder R141, R142); the bound says that it fits in the answer's 28 bits. -/
theorem priorityEncode_toNat_of_least {f : List Bool} {i : Nat} (hlen : f.length ≤ 2 ^ 28) (hset : f[i]? = some true)
    (hbelow : ∀ j, j < i → f[j]? = some false) : (priorityEncode f).toNat = i := by
  obtain ⟨hi, hget⟩ := List.getElem?_eq_some_iff.1 hset
  have hfind : f.findIdx? id = some i := by
    refine List.findIdx?_eq_some_iff_getElem.2 ⟨hi, hget, fun j hj => ?_⟩
    obtain ⟨_, hclear⟩ := List.getElem?_eq_some_iff.1 (hbelow j hj)
    simp [hclear]
  rw [priorityEncode, hfind, Option.getD_some, BitVec.toNat_ofNat, Nat.mod_eq_of_lt (by omega)]

/-- The "no match" encoding (41_priority_encoder R144). -/
theorem priorityEncode_of_forall_false {f : List Bool} (h : ∀ b ∈ f, b = false) : priorityEncode f = 0 := by
  have hfind : f.findIdx? id = none := List.findIdx?_eq_none_iff.2 h
  rw [priorityEncode, hfind]
  rfl

/-- Settles O14. -/
theorem priorityEncoderLeastIndex : Obligations.PriorityEncoderLeastIndex := by
  unfold Obligations.PriorityEncoderLeastIndex
  intro f hpos hlen
  exact ⟨priorityEncode_toNat_lt f hpos hlen, fun _ hset hbelow => priorityEncode_toNat_of_least hlen hset hbelow,
    priorityEncode_of_forall_false⟩

/-- A comparison has no flag but those of the entries (20_memory R53). -/
theorem mem_sbCompare {s : State} {k : Key} {b : Bool} : b ∈ s.sbCompare k ↔ ∃ i < s.cfg.entries, s.hit i k = b := by
  simp only [State.sbCompare, List.mem_map, List.mem_range]

/-- Settles O15. -/
theorem searchFindsLeastHit : Obligations.SearchFindsLeastHit := by
  unfold Obligations.SearchFindsLeastHit
  intro s k hv
  refine ⟨fun i hi hhit hbelow => ?_, fun hnone => ?_⟩
  · have hlen : (s.sbCompare k).length ≤ 2 ^ 28 := length_sbCompare s k ▸ entries_le_of_valid hv
    refine priorityEncode_toNat_of_least hlen ?_ fun j hj => ?_
    · rw [sbCompare_getElem? s k hi, hhit]
    · rw [sbCompare_getElem? s k (hj.trans hi), hbelow j hj]
  · refine priorityEncode_of_forall_false fun b hb => ?_
    obtain ⟨i, hi, rfl⟩ := mem_sbCompare.1 hb
    exact hnone i hi

end Sys2Proof.Machine

/-! The register-adapter family (42_register_adapter): the cycle each register transaction is accepted in, the early and the
malformed transaction, the traversals a register access starts, and the transport binding. Each layer carries its
statements. -/

namespace Sys2Proof.Machine

/-! ### The cycle a transaction is accepted in -/

theorem State.RegReady.live {s : State} (h : s.RegReady) : s.Live := by
  obtain ⟨hl, -⟩ := h
  exact hl

theorem State.RegReady.idle {s : State} (h : s.RegReady) : s.fsm = .idle := by
  obtain ⟨-, -, hidle, -⟩ := h
  exact hidle

theorem State.RegReady.tick_none {s : State} (h : s.RegReady) : s.tick none = s.quiet := tick_none_idle h.idle

theorem State.RegReady.tick_some {s : State} {r : Request} (h : s.RegReady) (hr : r.csb = false) :
    s.tick (some r) = s.quiet.latch r :=
  tick_some_idle h.idle hr

/-- Settles O33. -/
theorem wrControlEffect : Obligations.WrControlEffect := by
  unfold Obligations.WrControlEffect
  intro s v h
  rw [exec, execWrControl, h.regCycle, h.tick_none]
  rfl

/-- Settles O39. -/
theorem wrStatusEffect : Obligations.WrStatusEffect := by
  unfold Obligations.WrStatusEffect
  intro s v h
  rw [exec, execWrStatus, h.regCycle, h.tick_none]
  rfl

/-- Settles O40. -/
theorem rdControlEffect : Obligations.RdControlEffect := by
  unfold Obligations.RdControlEffect
  intro s h
  rw [exec, execRdControl, h.regCycle, h.tick_none]
  rfl

/-- Settles O41. -/
theorem writeOnlyReadsReturnDraws : Obligations.WriteOnlyReadsReturnDraws := by
  unfold Obligations.WriteOnlyReadsReturnDraws
  intro s h
  rw [exec, execRdWdata, exec, execRdAddress, h.regCycle, h.tick_none]
  exact ⟨rfl, rfl⟩

/-- A STATUS read looks at no presence flag and not at CONTROL (42_register_adapter R175). -/
theorem State.RegReady.exec_rdStatus {s : State} (h : s.RegReady) :
    exec .rdStatus s = .next (s.quiet.latch statusRequest).awaitStatus := by
  rw [exec, execRdStatus, h.regCycle, h.tick_some rfl]

/-! ### WR.ADDRESS and WR.WDATA, one equation a branch -/

/-- No CONTROL setup (42_register_adapter R172; log 9). -/
theorem State.RegReady.exec_wrAddress_misuse {s : State} (h : s.RegReady) (hctrl : s.ctrlV = false) (v : Word) :
    exec (.wrAddress v) s = .next (s.quiet.raise .protocolMisuse) := by
  rw [exec, execWrAddress, h.regCycle, if_pos hctrl, h.tick_none]

/-- `csb = 1`: the address is only latched (42_register_adapter R173, R181). -/
theorem State.RegReady.exec_wrAddress_disabled {s : State} (h : s.RegReady) (hctrl : s.ctrlV = true)
    (hcsb : controlCsb s.control = true) (v : Word) :
    exec (.wrAddress v) s
      = .next ((s.quiet.setAddress (keyBits s.cfg.keyW v)).markAddress.respond okayWrite) := by
  rw [exec, execWrAddress, h.regCycle, if_neg (by simp [hctrl]), if_pos hcsb, h.tick_none]

/-- Search mode: every address is a key, and starts a Search (42_register_adapter R173). -/
theorem State.RegReady.exec_wrAddress_search {s : State} (h : s.RegReady) (hctrl : s.ctrlV = true)
    (hcsb : controlCsb s.control = false) (hweb : controlWeb s.control = true) (v : Word) :
    exec (.wrAddress v) s
      = .next (((s.quiet.latch (regSearchRequest (keyBits s.cfg.keyW v))).clearPresence.setAddress
        (keyBits s.cfg.keyW v)).respond okayWrite) := by
  rw [exec, execWrAddress, h.regCycle, if_neg (by simp [hctrl]), if_neg (by simp [hcsb]), if_pos hweb, h.tick_some rfl]

/-- Write mode, an address that is no entry's (42_register_adapter R171). -/
theorem State.RegReady.exec_wrAddress_outOfRange {s : State} (h : s.RegReady) (hctrl : s.ctrlV = true)
    (hcsb : controlCsb s.control = false) (hweb : controlWeb s.control = false) {v : Word}
    (hv : s.cfg.entries ≤ v.toNat) :
    exec (.wrAddress v) s = .next (s.quiet.respond (.reg .outOfRange none)) := by
  rw [exec, execWrAddress, h.regCycle, if_neg (by simp [hctrl]), if_neg (by simp [hcsb]), if_neg (by simp [hweb]),
    if_pos hv, h.tick_none]

/-- Write mode, the data is present: the Write starts (42_register_adapter R173). -/
theorem State.RegReady.exec_wrAddress_write {s : State} (h : s.RegReady) (hctrl : s.ctrlV = true)
    (hcsb : controlCsb s.control = false) (hweb : controlWeb s.control = false) {v : Word}
    (hv : v.toNat < s.cfg.entries) (hdata : s.dataV = true) :
    exec (.wrAddress v) s
      = .next (((s.quiet.latch (regWriteRequest (keyBits s.cfg.keyW v) s.wdata s.control)).clearPresence.setAddress
        (keyBits s.cfg.keyW v)).respond okayWrite) := by
  rw [exec, execWrAddress, h.regCycle, if_neg (by simp [hctrl]), if_neg (by simp [hcsb]), if_neg (by simp [hweb]),
    if_neg (not_le.2 hv), if_pos hdata, h.tick_some rfl]

/-- Write mode, the data is still to come: the address waits for it (42_register_adapter R173). -/
theorem State.RegReady.exec_wrAddress_prepare {s : State} (h : s.RegReady) (hctrl : s.ctrlV = true)
    (hcsb : controlCsb s.control = false) (hweb : controlWeb s.control = false) {v : Word}
    (hv : v.toNat < s.cfg.entries) (hdata : s.dataV = false) :
    exec (.wrAddress v) s
      = .next ((s.quiet.setAddress (keyBits s.cfg.keyW v)).markAddress.respond okayWrite) := by
  rw [exec, execWrAddress, h.regCycle, if_neg (by simp [hctrl]), if_neg (by simp [hcsb]), if_neg (by simp [hweb]),
    if_neg (not_le.2 hv), if_neg (by simp [hdata]), h.tick_none]

/-- No CONTROL setup (42_register_adapter R172; log 9). -/
theorem State.RegReady.exec_wrWdata_misuse {s : State} (h : s.RegReady) (hctrl : s.ctrlV = false) (v : Word) :
    exec (.wrWdata v) s = .next (s.quiet.raise .protocolMisuse) := by
  rw [exec, execWrWdata, h.regCycle, if_pos hctrl, h.tick_none]

/-- Write mode, the address is present: the Write starts (42_register_adapter R174). -/
theorem State.RegReady.exec_wrWdata_write {s : State} (h : s.RegReady) (hctrl : s.ctrlV = true)
    (hstart : controlCsb s.control = false ∧ controlWeb s.control = false ∧ s.addrV = true) (v : Word) :
    exec (.wrWdata v) s
      = .next (((s.quiet.latch (regWriteRequest s.address v s.control)).clearPresence.setWdata v).respond okayWrite) := by
  rw [exec, execWrWdata, h.regCycle, if_neg (by simp [hctrl]), if_pos hstart, h.tick_some rfl]

/-- Otherwise the data is only latched (42_register_adapter R174). -/
theorem State.RegReady.exec_wrWdata_latch {s : State} (h : s.RegReady) (hctrl : s.ctrlV = true)
    (hno : ¬ (controlCsb s.control = false ∧ controlWeb s.control = false ∧ s.addrV = true)) (v : Word) :
    exec (.wrWdata v) s = .next ((s.quiet.setWdata v).markData.respond okayWrite) := by
  rw [exec, execWrWdata, h.regCycle, if_neg (by simp [hctrl]), if_neg hno, h.tick_none]

/-- Settles O34. -/
theorem wrAddressOutOfRangeRejected : Obligations.WrAddressOutOfRangeRejected := by
  unfold Obligations.WrAddressOutOfRangeRejected
  intro s v h hctrl hcsb hv
  exact ⟨fun hweb => h.exec_wrAddress_outOfRange hctrl hcsb hweb hv,
    fun hweb => ⟨_, h.exec_wrAddress_search hctrl hcsb hweb v, rfl, rfl, rfl⟩⟩

/-- Settles O36: the four branches of a write that passes the checks. -/
theorem wrAddressEffect : Obligations.WrAddressEffect := by
  unfold Obligations.WrAddressEffect
  intro s v h hctrl
  exact ⟨fun hcsb => h.exec_wrAddress_disabled hctrl hcsb v,
    fun hcsb hweb => h.exec_wrAddress_search hctrl hcsb hweb v,
    fun hcsb hweb hv hdata => h.exec_wrAddress_write hctrl hcsb hweb hv hdata,
    fun hcsb hweb hv hdata => h.exec_wrAddress_prepare hctrl hcsb hweb hv hdata⟩

/-- Settles O37. -/
theorem wrWdataEffect : Obligations.WrWdataEffect := by
  unfold Obligations.WrWdataEffect
  intro s v h hctrl
  exact ⟨fun hstart => h.exec_wrWdata_write hctrl hstart v, fun hno => h.exec_wrWdata_latch hctrl hno v⟩

/-- A faulted state has no next state: a step and a meaning alike start from a live one (60_exceptions R236). -/
theorem no_next_of_raised {t : State} (hraised : t.raised ≠ none) (u : State) :
    step t ≠ .next u ∧ ∀ i, exec i t ≠ .next u := by
  refine ⟨fun hu => ?_, fun i hu => ?_⟩
  · obtain ⟨⟨-, hnone, -⟩, -⟩ := step_tick hu
    exact hraised hnone
  · obtain ⟨⟨-, hnone, -⟩, -⟩ := exec_tick hu
    exact hraised hnone

/-- Settles O35: both writes end in one state, whose misuse flag stops it. -/
theorem misuseRaisesFault : Obligations.MisuseRaisesFault := by
  unfold Obligations.MisuseRaisesFault
  intro s v h hctrl
  have hraised : (s.quiet.raise .protocolMisuse).raised ≠ none := by simp [raised_eq_none]
  exact ⟨s.quiet.raise .protocolMisuse, rfl, h.exec_wrAddress_misuse hctrl v, h.exec_wrWdata_misuse hctrl v,
    no_next_of_raised hraised⟩

/-- An idle engine that keeps its own fields has started nothing. -/
theorem starts_nothing {i : Instr} {s t : State} (hidle : s.fsm = .idle) (ht : exec i s = .next t)
    (heq : EngineEq t s) :
    ∃ t, exec i s = .next t ∧ t.fsm = .idle ∧ t.latOp = s.latOp ∧ t.latAddr = s.latAddr ∧ t.latData = s.latData
      ∧ t.latWmask = s.latWmask ∧ t.pma = s.pma ∧ s.SameBank t := by
  obtain ⟨-, hfsm, hop, haddr, hdata, hmask, -, hpma, -, hvalue, hcare⟩ := heq
  exact ⟨t, ht, hfsm.trans hidle, hop, haddr, hdata, hmask, hpma,
    fun a => ⟨valueByte_congr hvalue a, careByte_congr hcare a⟩⟩

/-- Settles O45: with `csb = 1` each of the four writes only takes the branch that latches. -/
theorem disabledChipSelectStartsNothing : Obligations.DisabledChipSelectStartsNothing := by
  unfold Obligations.DisabledChipSelectStartsNothing
  intro s v h hctrl hcsb
  have haddress := h.exec_wrAddress_disabled hctrl hcsb v
  have hwdata := h.exec_wrWdata_latch hctrl (fun ⟨hno, _⟩ => absurd (hcsb.symm.trans hno) (by decide)) v
  refine ⟨?_, ⟨_, haddress, rfl, rfl⟩, ⟨_, hwdata, rfl, rfl⟩, ⟨_, h.exec_rdStatus, rfl, rfl⟩⟩
  simp only [List.forall_mem_cons]
  exact ⟨starts_nothing h.idle (wrStatusEffect s v h) (by simp [EngineEq]),
    starts_nothing h.idle (wrControlEffect s v h) (by simp [EngineEq]),
    starts_nothing h.idle haddress (by simp [EngineEq]),
    starts_nothing h.idle hwdata (by simp [EngineEq]), by simp⟩

/-! ### The malformed and the early transaction -/

/-- The four offsets are all the decoder knows (42_register_adapter R160). -/
theorem decodeRt_eq_none {we : Bool} {off : Nat} {v : Word} (h : off ∉ [0x0, 0x4, 0x8, 0xC]) :
    decodeRt we off v = none := by
  simp only [List.mem_cons, List.not_mem_nil, or_false, not_or] at h
  obtain ⟨h0, h4, h8, hC⟩ := h
  rw [decodeRt, if_neg h0, if_neg h4, if_neg h8, if_neg hC]

/-- Inside the window, a wrong width or an offset of no register is a bad access (42_register_adapter R167). -/
theorem decode_rt_eq_bad {c : Config} {we : Bool} {a sz : Nat} {v : Word} (hlow : c.base ≤ a) (hhigh : a < c.windowEnd)
    (hbad : sz ≠ 4 ∨ decodeRt we (a - c.base) v = none) : decode c (.rt we a sz v) = .error .badRegisterAccess := by
  have hwin : ¬ (a < c.base ∨ c.windowEnd ≤ a) := by omega
  rw [decode, if_neg hwin]
  split_ifs with hsz
  · rfl
  · rw [hbad.resolve_left hsz]

/-- The cycle of a bad access inside the window. -/
theorem step_of_bad {s : State} {we : Bool} {a sz : Nat} {v : Word} (hp : s.presented = some (.rt we a sz v))
    (hlow : s.cfg.base ≤ a) (hhigh : a < s.cfg.windowEnd)
    (hbad : sz ≠ 4 ∨ decodeRt we (a - s.cfg.base) v = none) : step s = badAccessCycle s.advance := by
  simp only [step, hp, decode_rt_eq_bad hlow hhigh hbad, undecodedCycle]

/-- Settles O44. -/
theorem badAccessRaisesFault : Obligations.BadAccessRaisesFault := by
  unfold Obligations.BadAccessRaisesFault
  intro s we a sz v rest h hhost hlow hhigh hbad
  have hp : s.presented = some (.rt we a sz v) := by simp [State.presented, hhost]
  have hadv : s.advance = { s with host := rest } := by simp [State.advance, hhost]
  have hready : s.advance.RegReady := h
  rw [step_of_bad hp hlow hhigh (hbad.imp_right decodeRt_eq_none), badAccessCycle, hready.regCycle, hready.tick_none, hadv]
  rfl

/-- Every command of the register map is a cycle of the register port. -/
theorem exec_of_decodeRt {we : Bool} {off : Nat} {v : Word} {i : Instr} (h : decodeRt we off v = some i) (s : State) :
    ∃ k, exec i s = s.regCycle k := by
  unfold decodeRt at h
  iterate 4
    split at h
    · cases h
      cases we <;> exact ⟨_, rfl⟩
  cases h

/-- So is everything presented inside the window, legal or not (42_register_adapter R169). -/
theorem step_of_inWindow {s : State} {cmd : Command} (hp : s.presented = some cmd) (hw : s.InWindow cmd) :
    ∃ k, step s = s.advance.regCycle k := by
  cases cmd with
  | ci funct opA opB rd => cases hw
  | er csb op addr data wmask => cases hw
  | rt we a sz v =>
    obtain ⟨hlow, hhigh⟩ := hw
    by_cases hbad : sz ≠ 4 ∨ decodeRt we (a - s.cfg.base) v = none
    · exact ⟨_, step_of_bad hp hlow hhigh hbad⟩
    · obtain ⟨rfl, hsome⟩ : sz = 4 ∧ decodeRt we (a - s.cfg.base) v ≠ none := by simpa [not_or] using hbad
      obtain ⟨i, hi⟩ := Option.ne_none_iff_exists'.1 hsome
      have hoff : a - s.cfg.base < 16 := Nat.sub_lt_left_of_lt_add hlow hhigh
      rw [step_of_decode hp (decode_rt_eq_ok_iff.2 ⟨_, hoff, (Nat.add_sub_of_le hlow).symm, rfl, hi⟩)]
      exact exec_of_decodeRt hi s.advance

/-- A transaction the adapter cannot accept yet (42_register_adapter R168; log 24). -/
theorem regCycle_of_busy {s : State} (hl : s.Live) (hf : s.cfg.frontEnd = .reg)
    (hbusy : s.fsm ≠ .idle ∨ s.raState = .waitStatus) (k : Answer State) :
    s.regCycle k = .next ((s.tick none).raise .settleViolation) := by
  have hacc : s.regAccepts = false := by
    rcases hbusy with hfsm | hra
    · simp [State.regAccepts, hfsm]
    · simp [State.regAccepts, hra]
  rw [State.regCycle, hl.whenLive, if_neg (by simp [hf]), if_pos hacc]

/-- Settles O42: both steps are one `tick` of the same live state, and the transaction's raises on top of it. -/
theorem prematureTransactionFaults : Obligations.PrematureTransactionFaults := by
  unfold Obligations.PrematureTransactionFaults
  intro s t cmd rest hf hbusy hw hquiet
  rw [step_of_presented_none rfl] at hquiet
  obtain ⟨hl, ht⟩ := whenLive_next.1 hquiet
  cases ht
  obtain ⟨k, hstep⟩ := step_of_inWindow (s := { s with host := some cmd :: rest }) rfl hw
  exact hstep.trans (regCycle_of_busy (s := { s with host := rest }) hl hf hbusy k)

/-! ### The traversals a register access starts -/

/-- The EXECUTE cycle erases the response of the cycle before it. -/
theorem afterExecute_eq (t : State) : t.afterExecute = t.executePhase.waited 1 .probe := by
  have hquiet : t.advance.quiet = t.waited 1 t.fsm := by simp [State.waited, State.advance, State.quiet]
  rw [State.afterExecute, hquiet, executePhase_waited, goto_waited]

theorem afterProbe_waited (t : State) (n : Nat) (f : Fsm) :
    (t.waited n f).afterProbe = t.probePhase.waited (n + 1) .response := by
  rw [State.afterProbe, advance_quiet_waited, probePhase_waited, goto_waited]

/-- An accepted operation followed by quiet cycles, up to what its last cycle delivers (40_control_engine R104). -/
theorem traversal_of_execute {i : Instr} {s t : State} (ht : exec i s = .next t) (hl : t.Live) (hf : t.fsm = .execute)
    (hq : t.QuietFor 3) :
    Traversal i s t (t.executePhase.waited 1 .probe) (t.executePhase.probePhase.waited 2 .response)
      (t.executePhase.probePhase.waited 2 .response).afterResponse := by
  obtain ⟨h2, h3, h4⟩ := traverse hl hf hq
  rw [afterExecute_eq] at h2 h3 h4
  rw [afterProbe_waited] at h3 h4
  exact ⟨ht, h2, h3, h4, hf, rfl, rfl, rfl⟩

/-- A register adapter that waits for no STATUS read delivers nothing (42_register_adapter R182). -/
theorem afterResponse_of_ready {t : State} (n : Nat) (hf : t.cfg.frontEnd = .reg) (hra : t.raState = .ready) :
    (t.waited n .response).afterResponse = t.waited (n + 1) .idle := by
  rw [State.afterResponse, deliver_of_ready, advance_quiet_waited, goto_waited]
  · simp [State.waited, hra]
  · simp [State.waited, hf]

/-- A register adapter that waits answers the STATUS read with `result` (42_register_adapter R176). -/
theorem afterResponse_of_waitStatus {t : State} (n : Nat) (hf : t.cfg.frontEnd = .reg) (hra : t.raState = .waitStatus) :
    (t.waited n .response).afterResponse
      = { t.waited (n + 1) .idle with raState := .ready, resp := some (.reg .okay (some t.result)) } := by
  rw [State.afterResponse, deliver_of_waitStatus (s := (t.waited n .response).advance) hf hra rfl]
  simp [State.waited, State.advance, State.goto, State.result]

/-- The traversal of an operation that answers in its own cycle and in no later one (42_register_adapter R182). -/
theorem traversal_of_registerWrite {i : Instr} {s t : State} (h : s.RegReady) (hq : s.QuietFor 3)
    (ht : exec i s = .next t) (hl : t.Live) (hf : t.fsm = .execute) (hcfg : t.cfg = s.cfg) (hra : t.raState = s.raState)
    (hhost : t.host = s.host) :
    Traversal i s t (t.executePhase.waited 1 .probe) (t.executePhase.probePhase.waited 2 .response)
      (t.executePhase.probePhase.waited 3 s.fsm) := by
  obtain ⟨-, hfe, hidle, hready⟩ := h
  have htrav := traversal_of_execute ht hl hf (by rwa [State.QuietFor, hhost])
  rwa [afterResponse_of_ready 2 (by simp [hcfg, hfe]) (by simp [hra, hready]), ← hidle] at htrav

/-- A register access that latches a request which names an entry, where it must, leaves the block live. -/
theorem State.RegReady.latch_live {s : State} {r : Request} (h : s.RegReady)
    (ha : r.op.takesAddress = true → r.addr.toNat < s.cfg.entries) : (s.quiet.latch r).Live :=
  State.Live.latch (s := s.quiet) h.live ha

/-- Settles O38. -/
theorem rdStatusEffect : Obligations.RdStatusEffect := by
  unfold Obligations.RdStatusEffect
  intro s h hq
  have htrav := traversal_of_execute h.exec_rdStatus
    (h.latch_live (r := statusRequest) fun hop => by cases hop) rfl hq
  obtain ⟨-, hfe, hidle, hra⟩ := h
  rw [afterResponse_of_waitStatus (t := (s.quiet.latch statusRequest).awaitStatus.executePhase.probePhase) 2 hfe rfl,
    ← hidle, ← hra] at htrav
  exact ⟨_, _, _, htrav, rfl, rfl, rfl, rfl, rfl, rfl⟩

/-- Settles O46: a Search takes no address, so any key passes. -/
theorem registerSearchEffect : Obligations.RegisterSearchEffect := by
  unfold Obligations.RegisterSearchEffect
  intro s v h hq hctrl hcsb hweb k
  have hlive := h.latch_live (r := regSearchRequest k) fun hop => by cases hop
  exact ⟨_, _, _, traversal_of_registerWrite h hq (h.exec_wrAddress_search hctrl hcsb hweb v) hlive rfl rfl rfl rfl,
    rfl, rfl, rfl⟩

/-- An ADDRESS write in range stores the whole value (42_register_adapter R171, R173). -/
theorem keyBits_toNat_of_lt_entries {c : Config} {v : Word} (hv : c.valid = true) (h : v.toNat < c.entries) :
    (keyBits c.keyW v).toNat = v.toNat := by
  obtain ⟨-, hkey, -, hentries, -⟩ := (valid_iff c).1 hv
  rw [keyBits_toNat hkey, Nat.mod_eq_of_lt (h.trans_le hentries)]

/-- Settles O47: whichever of the two writes comes second starts the Write. -/
theorem registerWriteEffect : Obligations.RegisterWriteEffect := by
  unfold Obligations.RegisterWriteEffect
  intro s v h hq hctrl hcsb hweb
  refine ⟨fun haddr hrange => ?_, fun hdata hrange => ?_⟩
  · have hlive := h.latch_live (r := regWriteRequest s.address v s.control) fun _ => hrange
    exact ⟨_, _, _,
      traversal_of_registerWrite h hq (h.exec_wrWdata_write hctrl ⟨hcsb, hweb, haddr⟩ v) hlive rfl rfl rfl rfl⟩
  · obtain ⟨hv, -⟩ := h.live
    have hlive := h.latch_live (r := regWriteRequest (keyBits s.cfg.keyW v) s.wdata s.control)
      fun _ => keyBits_lt_entries hv hrange
    rw [← keyBits_toNat_of_lt_entries hv hrange]
    exact ⟨_, _, _,
      traversal_of_registerWrite h hq (h.exec_wrAddress_write hctrl hcsb hweb hrange hdata) hlive rfl rfl rfl rfl⟩

/-! ### The transport binding -/

theorem decode_withBinding (s : State) (b : Binding) (cmd : Command) :
    decode (s.withBinding b).cfg cmd = decode s.cfg cmd := by
  cases cmd <;> rfl

theorem deliverStatus_withBinding (s : State) (b : Binding) :
    (s.withBinding b).deliverStatus = s.deliverStatus.withBinding b := by
  rw [State.deliverStatus, State.deliverStatus, apply_ite (State.withBinding · b)]
  rfl

theorem route_withBinding (s : State) (b : Binding) : (s.withBinding b).route = s.route.withBinding b := by
  rw [State.route, State.route, apply_ite (State.withBinding · b)]
  rfl

theorem deliver_withBinding (s : State) (b : Binding) : (s.withBinding b).deliver = s.deliver.withBinding b := by
  have hfe : (s.withBinding b).cfg.frontEnd = s.cfg.frontEnd := rfl
  unfold State.deliver
  rw [hfe]
  cases s.cfg.frontEnd with
  | reg => exact deliverStatus_withBinding s.quiet b
  | ci => exact route_withBinding s.quiet b
  | both => rfl

theorem executePhase_withBinding (s : State) (b : Binding) :
    (s.withBinding b).executePhase = s.executePhase.withBinding b := by
  obtain ⟨_, _, op, _⟩ := s
  cases op <;> rfl

theorem probePhase_withBinding (s : State) (b : Binding) :
    (s.withBinding b).probePhase = s.probePhase.withBinding b := by
  obtain ⟨_, _, op, _⟩ := s
  cases op <;> rfl

theorem engineCycle_withBinding (s : State) (b : Binding) (req : Option Request) :
    (s.withBinding b).engineCycle req = (s.engineCycle req).withBinding b := by
  have hfsm : (s.withBinding b).fsm = s.fsm := rfl
  unfold State.engineCycle
  rw [hfsm]
  cases s.fsm with
  | idle =>
    rcases req with _ | ⟨_ | _, _⟩
    · rfl
    · rfl
    · rfl
  | execute => exact congrArg (State.goto · .probe) (executePhase_withBinding s b)
  | probe => exact congrArg (State.goto · .response) (probePhase_withBinding s b)
  | response => rfl

theorem tick_withBinding (s : State) (b : Binding) (req : Option Request) :
    (s.withBinding b).tick req = (s.tick req).withBinding b := by
  rw [State.tick, deliver_withBinding, engineCycle_withBinding, State.tick]

/-- What comes before a meaning does not look at the binding. -/
theorem whenLive_withBinding (s : State) (b : Binding) (k : Answer State) :
    (s.withBinding b).whenLive (Answer.map (State.withBinding · b) k)
      = Answer.map (State.withBinding · b) (s.whenLive k) := by
  have hvalid : (s.withBinding b).cfg.valid = s.cfg.valid := rfl
  have hraised : (s.withBinding b).raised = s.raised := rfl
  have hstray : (s.withBinding b).strayWrite = s.strayWrite := rfl
  simp only [State.whenLive, hvalid, hraised, hstray]
  cases s.cfg.valid <;> cases s.raised <;> cases s.strayWrite <;> rfl

theorem idleCycle_withBinding (s : State) (b : Binding) :
    (s.withBinding b).idleCycle = Answer.map (State.withBinding · b) s.idleCycle := by
  rw [State.idleCycle, State.idleCycle, ← whenLive_withBinding, tick_withBinding]
  rfl

theorem ciCycle_withBinding (s : State) (b : Binding) (cmd : Command) (r : Request) (rd : Nat) (c : Bool) (a : Nat) :
    (s.withBinding b).ciCycle cmd r rd c a = Answer.map (State.withBinding · b) (s.ciCycle cmd r rd c a) := by
  simp only [State.ciCycle, ← whenLive_withBinding, tick_withBinding, apply_ite (Answer.map (State.withBinding · b))]
  rfl

theorem regCycle_withBinding (s : State) (b : Binding) {k k' : Answer State}
    (hk : k' = Answer.map (State.withBinding · b) k) :
    (s.withBinding b).regCycle k' = Answer.map (State.withBinding · b) (s.regCycle k) := by
  subst hk
  simp only [State.regCycle, ← whenLive_withBinding, tick_withBinding, apply_ite (Answer.map (State.withBinding · b))]
  rfl

theorem engCycle_withBinding (s : State) (b : Binding) (r : Request) :
    (s.withBinding b).engCycle r = Answer.map (State.withBinding · b) (s.engCycle r) := by
  simp only [State.engCycle, ← whenLive_withBinding, tick_withBinding, apply_ite (Answer.map (State.withBinding · b))]
  rfl

/-- Every meaning is the cycle of one of the three ports, under a request that the binding does not enter. -/
theorem exec_withBinding (i : Instr) (s : State) (b : Binding) :
    exec i (s.withBinding b) = Answer.map (State.withBinding · b) (exec i s) := by
  cases i with
  | tcamWrite _ _ _ | tcamRead _ _ _ | tcamSearch _ _ _ | tcamStatus _ _ _ => exact ciCycle_withBinding s b _ _ _ _ _
  | engWrite _ _ _ | engRead _ _ _ | engSearch _ _ _ | engStatus _ _ _ => exact engCycle_withBinding s b _
  | rdStatus | wrStatus _ | rdControl | wrControl _ | rdWdata | rdAddress =>
    exact regCycle_withBinding s b (by rw [tick_withBinding]; rfl)
  | wrWdata _ | wrAddress _ =>
    refine regCycle_withBinding s b ?_
    simp only [tick_withBinding, apply_ite (Answer.map (State.withBinding · b))]
    rfl

theorem undecodedCycle_withBinding (e : DecodeError) (s : State) (b : Binding) :
    undecodedCycle e (s.withBinding b) = Answer.map (State.withBinding · b) (undecodedCycle e s) := by
  cases e with
  | outsideWindow | inactiveRequest => exact idleCycle_withBinding s b
  | badRegisterAccess => exact regCycle_withBinding s b (by rw [tick_withBinding]; rfl)
  | slotTooWide | addressTooWide => exact whenLive_withBinding s b (.refused .notPresentable)

/-- Settles O53: neither the decoder nor any cycle looks at the binding. -/
theorem bindingHasNoEffect : Obligations.BindingHasNoEffect := by
  unfold Obligations.BindingHasNoEffect
  intro s b
  have hp : (s.withBinding b).presented = s.presented := rfl
  unfold step
  rw [hp]
  cases s.presented with
  | none => exact idleCycle_withBinding s.advance b
  | some cmd =>
    simp only [decode_withBinding]
    cases decode s.cfg cmd with
    | ok i => exact exec_withBinding i s.advance b
    | error e => exact undecodedCycle_withBinding e s.advance b

end Sys2Proof.Machine

/-! The custom-instruction family (43_custom_instruction): a command that is accepted, rejected or held, the delivery of
the router in one cycle, and the agreement of the two front ends on a Search. Each layer carries its statements. -/

namespace Sys2Proof.Machine

/-! ### An accepted command runs its traversal, a rejected one does not start -/

/-- What the router's delivery of the result leaves (43_custom_instruction R211). -/
def State.routed (s : State) : State :=
  { s with
    ciState := .ready, slots := Memory.put s.ciRd s.result s.slots, resp := some (.ci .okay s.ciRd (some s.result)) }

/-- A waiting instruction adapter delivers in the RESPONSE cycle (43_custom_instruction R211). -/
theorem afterResponse_of_wait {t : State} (n : Nat) (hf : t.cfg.frontEnd = .ci) (hci : t.ciState = .wait) :
    (t.waited n .response).afterResponse = (t.waited (n + 1) .idle).routed := by
  rw [State.afterResponse, deliver_of_wait (s := (t.waited n .response).advance) hf hci rfl]
  simp [State.waited, State.advance, State.goto, State.result, State.routed]

/-- The block once its command, accepted in `s` with the request `r`, is delivered to slot `rd`. -/
def State.completed (s : State) (r : Request) (rd : Nat) : State :=
  { (((s.quiet.latch r).awaitResult rd).executePhase.probePhase.waited 3 s.fsm).routed with ciState := s.ciState }

/-- A command a ready adapter accepts is delivered in the fourth cycle (43_custom_instruction R204, R210, R211). -/
theorem traversal_of_ciCycle {i : Instr} {s : State} {cmd : Command} {r : Request} {rd : Nat} {c : Bool} {a : Nat}
    (hi : exec i s = s.ciCycle cmd r rd c a) (h : s.CiReady) (hq : s.QuietFor 3) (hr : r.csb = false)
    (hchecked : c = true → a < s.cfg.entries) (haddr : r.op.takesAddress = true → r.addr.toNat < s.cfg.entries) :
    ∃ t1 t2 t3, Traversal i s t1 t2 t3 (s.completed r rd) := by
  have haccept := hi.trans (h.ciCycle cmd r rd c a hr hchecked)
  obtain ⟨hl, hf, hidle, hready⟩ := h
  have hlive : ((s.quiet.latch r).awaitResult rd).Live := State.Live.latch (s := s.quiet) hl haddr
  have htrav := traversal_of_execute haccept hlive rfl hq
  rw [afterResponse_of_wait 2 (by simpa using hf) (by simp)] at htrav
  rw [State.completed, hidle, hready]
  exact ⟨_, _, _, htrav⟩

theorem State.CiReady.valid {s : State} (h : s.CiReady) : s.cfg.valid = true := by
  obtain ⟨⟨hv, -⟩, -⟩ := h
  exact hv

/-- Settles O26: the whole address `opA[27:0]` is in range, so the engine latches it uncut (43_custom_instruction R203). -/
theorem tcamWriteEffect : Obligations.TcamWriteEffect := by
  unfold Obligations.TcamWriteEffect
  intro s opA opB rd h hq haddr
  rw [← keyBits_eq_opAddr h.valid haddr]
  exact traversal_of_ciCycle (r := writeRequest s.cfg opA opB) rfl h hq rfl (fun _ => haddr)
    fun _ => keyBits_lt_of_opAddr_lt h.valid haddr

/-- Settles O27. -/
theorem tcamReadEffect : Obligations.TcamReadEffect := by
  unfold Obligations.TcamReadEffect
  intro s opA opB rd h hq haddr
  exact traversal_of_ciCycle (r := readRequest s.cfg opA) rfl h hq rfl (fun _ => haddr)
    fun _ => keyBits_lt_of_opAddr_lt h.valid haddr

/-- Settles O28: a Search takes no address, so any key passes. -/
theorem tcamSearchEffect : Obligations.TcamSearchEffect := by
  unfold Obligations.TcamSearchEffect
  intro s opA opB rd h hq p
  exact traversal_of_ciCycle (r := searchRequest s.cfg opA) rfl h hq rfl (fun hc => by cases hc) fun hop => by cases hop

/-- Settles O29: a Status takes no address either. -/
theorem tcamStatusEffect : Obligations.TcamStatusEffect := by
  unfold Obligations.TcamStatusEffect
  intro s opA opB rd h hq
  exact traversal_of_ciCycle (r := statusRequest) rfl h hq rfl (fun hc => by cases hc) fun hop => by cases hop

/-- A command that names no entry is answered in its own cycle and forms no request (43_custom_instruction R203). -/
theorem State.CiReady.ciCycle_outOfRange {s : State} (h : s.CiReady) (cmd : Command) (r : Request) (rd : Nat) {a : Nat}
    (ha : s.cfg.entries ≤ a) : s.ciCycle cmd r rd true a = .next (s.quiet.respond (.ci .outOfRange rd none)) := by
  have hacc := h.accepts
  obtain ⟨hl, hf, hidle, -⟩ := h
  rw [State.ciCycle, hl.whenLive, if_neg (by simp [hf]), if_neg (by simp [hacc]), if_pos ⟨rfl, ha⟩,
    tick_none_idle hidle]

/-- Settles O30. -/
theorem tcamOutOfRangeRejected : Obligations.TcamOutOfRangeRejected := by
  unfold Obligations.TcamOutOfRangeRejected
  intro s opA opB rd h ha
  exact ⟨h.ciCycle_outOfRange _ _ rd ha, h.ciCycle_outOfRange _ _ rd ha⟩

/-! ### What a cycle of the block leaves to the front end -/

/-- The engine writes neither the adapters' registers nor what the host presents and holds (10_state R20, R21). -/
theorem engineCycle_frame (s : State) (req : Option Request) :
    (s.engineCycle req).ciState = s.ciState ∧ (s.engineCycle req).slots = s.slots ∧ (s.engineCycle req).resp = s.resp
      ∧ (s.engineCycle req).host = s.host := by
  unfold State.engineCycle
  cases s.fsm with
  | idle =>
    rcases req with _ | ⟨_ | _, _⟩
    · exact ⟨rfl, rfl, rfl, rfl⟩
    · exact ⟨rfl, rfl, rfl, rfl⟩
    · exact ⟨rfl, rfl, rfl, rfl⟩
  | execute | probe => simp
  | response => exact ⟨rfl, rfl, rfl, rfl⟩

@[simp] theorem tick_ciState (s : State) (req : Option Request) : (s.tick req).ciState = s.deliver.ciState := by
  obtain ⟨h, -⟩ := engineCycle_frame s.deliver req
  exact h

@[simp] theorem tick_slots (s : State) (req : Option Request) : (s.tick req).slots = s.deliver.slots := by
  obtain ⟨-, h, -⟩ := engineCycle_frame s.deliver req
  exact h

@[simp] theorem tick_resp (s : State) (req : Option Request) : (s.tick req).resp = s.deliver.resp := by
  obtain ⟨-, -, h, -⟩ := engineCycle_frame s.deliver req
  exact h

@[simp] theorem tick_host (s : State) (req : Option Request) : (s.tick req).host = s.host := by
  obtain ⟨-, -, -, h⟩ := engineCycle_frame s.deliver req
  exact h.trans (by rw [deliver_frame])

/-! ### A command the adapter cannot accept -/

/-- Every `funct` is one cycle of the instruction port, in which the presented tuple itself is what may be held. -/
theorem exec_decodeCi (funct : BitVec 2) (opA opB : Word) (rd : Nat) (s : State) :
    ∃ r c a, exec (decodeCi funct opA opB rd) s = s.ciCycle (.ci funct opA opB rd) r rd c a := by
  rw [← encode_decodeCi s.cfg funct opA opB rd, decodeCi]
  cases Op.ofCode funct with
  | write | read | search | status => exact ⟨_, _, _, rfl⟩

/-- A command presented early waits for the next cycle, and the block runs on as if nothing were presented
(43_custom_instruction R205; log 13). -/
theorem ciCycle_of_busy {s : State} (hl : s.Live) (hf : s.cfg.frontEnd = .ci)
    (hbusy : s.fsm ≠ .idle ∨ s.ciState = .wait) (cmd : Command) (r : Request) (rd : Nat) (c : Bool) (a : Nat) :
    s.ciCycle cmd r rd c a = .next ((s.tick none).hold cmd) := by
  have hacc : s.ciAccepts = false := by
    rcases hbusy with hfsm | hci
    · simp [State.ciAccepts, hfsm]
    · simp [State.ciAccepts, hci]
  rw [State.ciCycle, hl.whenLive, if_neg (by simp [hf]), if_pos hacc]

/-- The step of such a cycle. -/
theorem step_of_held {s : State} {funct : BitVec 2} {opA opB : Word} {rd : Nat} {rest : List (Option Command)}
    (hl : s.Live) (hf : s.cfg.frontEnd = .ci) (hbusy : s.fsm ≠ .idle ∨ s.ciState = .wait) (hrd : rd < 2 ^ s.cfg.rdW)
    (hhost : s.host = some (.ci funct opA opB rd) :: rest) :
    step s = .next ((s.advance.tick none).hold (.ci funct opA opB rd)) := by
  have hp : s.presented = some (.ci funct opA opB rd) := by simp [State.presented, hhost]
  obtain ⟨r, c, a, hexec⟩ := exec_decodeCi funct opA opB rd s.advance
  rw [step_of_decode hp (decode_ci_eq_ok_iff.2 ⟨hrd, rfl⟩), hexec]
  exact ciCycle_of_busy hl.advance hf hbusy _ r rd c a

/-- Settles O31: the quiet cycle is a `tick` of the same live state, which does not touch what the host presents. -/
theorem busyCommandIsHeld : Obligations.BusyCommandIsHeld := by
  unfold Obligations.BusyCommandIsHeld
  intro s t funct opA opB rd rest hf hrd hbusy hquiet
  rw [step_of_presented_none rfl] at hquiet
  obtain ⟨hl, ht⟩ := whenLive_next.1 hquiet
  cases ht
  rw [step_of_held (s := { s with host := some (.ci funct opA opB rd) :: rest }) hl hf hbusy hrd rfl, State.hold]
  simp [State.advance]

/-- A busy engine's cycle leaves a live block: no cycle raises a fault, and none of a busy engine enters EXECUTE. -/
theorem State.Live.tick_of_busy {s : State} (hl : s.Live) (hbusy : s.fsm ≠ .idle) (req : Option Request) :
    (s.tick req).Live := by
  obtain ⟨hmisuse, hsettle, haccess, hcfg⟩ := tick_faults s req
  refine hl.of_eq hcfg (raised_congr hsettle haccess hmisuse) (strayWrite_of_ne_execute ?_)
  rw [(tick_fsm s req).resolve_right fun ⟨hidle, _⟩ => hbusy hidle]
  cases hf : s.fsm with
  | idle => exact absurd hf hbusy
  | execute | probe | response => decide

/-- The adapter of a busy engine waits for a result while `cmd` is presented to it, with `rest` to follow
(43_custom_instruction R205). -/
def State.Holding (s : State) (f : Fsm) (cmd : Command) (rest : List (Option Command)) : Prop :=
  s.Live ∧ s.cfg.frontEnd = .ci ∧ s.fsm = f ∧ s.ciState = .wait ∧ s.host = some cmd :: rest

section

variable {s : State} {f : Fsm} {funct : BitVec 2} {opA opB : Word} {rd : Nat} {rest : List (Option Command)}

/-- Whatever is in flight, the cycle moves the engine on, takes its delivery and keeps the command in its place. -/
theorem State.Holding.step_hold (h : s.Holding f (.ci funct opA opB rd) rest) (hbusy : f ≠ .idle)
    (hrd : rd < 2 ^ s.cfg.rdW) :
    ∃ t, step s = .next t ∧ t.Live ∧ t.cfg = s.cfg ∧ t.fsm = f.afterBusy ∧ t.ciState = s.advance.deliver.ciState
      ∧ t.host = some (.ci funct opA opB rd) :: rest := by
  obtain ⟨hl, hf, rfl, hci, hhost⟩ := h
  have hstep := step_of_held hl hf (.inr hci) hrd hhost
  obtain ⟨-, -, -, hcfg⟩ := tick_faults s.advance none
  exact ⟨_, hstep, hl.advance.tick_of_busy hbusy none, hcfg, step_fsm_of_busy hstep rfl hbusy, by simp,
    by simp [State.hold, State.advance, hhost]⟩

/-- Before the RESPONSE cycle nothing is delivered, and the adapter waits on. -/
theorem State.Holding.step_early (h : s.Holding f (.ci funct opA opB rd) rest) (hbusy : f ≠ .idle)
    (hearly : f ≠ .response) (hrd : rd < 2 ^ s.cfg.rdW) :
    ∃ t, step s = .next t ∧ t.cfg = s.cfg ∧ t.Holding f.afterBusy (.ci funct opA opB rd) rest := by
  obtain ⟨t, hstep, hl, hcfg, hfsm, hstate, hhost⟩ := h.step_hold hbusy hrd
  obtain ⟨-, hf, rfl, hci, -⟩ := h
  have hwait : s.advance.deliver.ciState = .wait := by simp [deliver_of_ne_response (s := s.advance) hearly, hci]
  exact ⟨t, hstep, hcfg, hl, hcfg ▸ hf, hfsm, hstate.trans hwait, hhost⟩

/-- The RESPONSE cycle delivers and frees the adapter, with the command still presented (43_custom_instruction R211). -/
theorem State.Holding.step_response (h : s.Holding .response (.ci funct opA opB rd) rest) (hrd : rd < 2 ^ s.cfg.rdW) :
    ∃ t, step s = .next t ∧ t.CiReady ∧ t.host = some (.ci funct opA opB rd) :: rest := by
  obtain ⟨t, hstep, hl, hcfg, hfsm, hstate, hhost⟩ := h.step_hold (by decide) hrd
  obtain ⟨-, hf, hresponse, hci, -⟩ := h
  have hready : s.advance.deliver.ciState = .ready := by simp [deliver_of_wait (s := s.advance) hf hci hresponse]
  exact ⟨t, hstep, ⟨hl, hcfg ▸ hf, hfsm, hstate.trans hready⟩, hhost⟩

end

/-- Settles O32: two cycles before the delivery, and the cycle of the delivery. -/
theorem heldCommandReachesAcceptance : Obligations.HeldCommandReachesAcceptance := by
  unfold Obligations.HeldCommandReachesAcceptance
  intro s funct opA opB rd rest hl hf hfsm hci hrd hhost
  have h0 : s.Holding .execute (.ci funct opA opB rd) rest := ⟨hl, hf, hfsm, hci, hhost⟩
  obtain ⟨t1, hstep1, hcfg1, h1⟩ := h0.step_early (by decide) (by decide) hrd
  obtain ⟨t2, hstep2, hcfg2, h2⟩ := h1.step_early (by decide) (by decide) (hcfg1 ▸ hrd)
  obtain ⟨u, hstep3, hready, hheld⟩ := h2.step_response (hcfg2 ▸ hcfg1 ▸ hrd)
  rw [runCycles_succ 2 hstep1, runCycles_succ 1 hstep2, runCycles_succ 0 hstep3]
  exact ⟨u, runCycles_zero u, hready, hheld⟩

/-! ### What the router writes in one cycle -/

/-- `t` holds the slots as the delivery in `s` leaves them, and after a RESPONSE cycle of an instruction front end also its
response and the adapter's state. -/
def RouterEq (s t : State) : Prop :=
  t.slots = s.deliver.slots
    ∧ (s.cfg.frontEnd = .ci → s.fsm = .response → t.resp = s.deliver.resp ∧ t.ciState = s.deliver.ciState)

theorem idleCycle_router {s t : State} (h : s.idleCycle = .next t) : RouterEq s t := by
  obtain ⟨-, h⟩ := whenLive_next.1 h
  cases h
  simp [RouterEq]

theorem engCycle_router {s t : State} {r : Request} (h : s.engCycle r = .next t) : RouterEq s t := by
  obtain ⟨-, rfl, -⟩ := engCycle_next h
  simp [RouterEq]

/-- A command is accepted or rejected in an IDLE cycle only, so a RESPONSE cycle holds it. -/
theorem ciCycle_router {s t : State} {cmd : Command} {r : Request} {rd : Nat} {c : Bool} {a : Nat}
    (h : s.ciCycle cmd r rd c a = .next t) : RouterEq s t := by
  have hnot : s.ciAccepts = true → s.fsm ≠ .response := by
    intro hacc hf
    simp [State.ciAccepts, hf] at hacc
  obtain ⟨-, -, ⟨-, rfl⟩ | ⟨hacc, -, -, rfl⟩ | ⟨hacc, -, rfl⟩⟩ := ciCycle_next h
  · simp [RouterEq]
  · exact ⟨by simp, fun _ hf => absurd hf (hnot hacc)⟩
  · exact ⟨by simp, fun _ hf => absurd hf (hnot hacc)⟩

/-- A register transaction has a cycle on the register front end only, and its dispatch writes no slot. -/
theorem regCycle_router {s t : State} {k : Answer State} (h : s.regCycle k = .next t)
    (hk : k = .next t → t.slots = s.deliver.slots) : RouterEq s t := by
  obtain ⟨-, hf, ⟨-, rfl⟩ | ⟨-, hdispatch⟩⟩ := regCycle_next h
  · exact ⟨by simp, fun hci => by simp [hci] at hf⟩
  · exact ⟨hk hdispatch, fun hci => by simp [hci] at hf⟩

theorem exec_router {i : Instr} {s t : State} (h : exec i s = .next t) : RouterEq s t := by
  cases i with
  | tcamWrite _ _ _ | tcamRead _ _ _ | tcamSearch _ _ _ | tcamStatus _ _ _ => exact ciCycle_router h
  | engWrite _ _ _ | engRead _ _ _ | engSearch _ _ _ | engStatus _ _ _ => exact engCycle_router h
  | rdStatus | wrStatus _ | rdControl | wrControl _ | rdWdata | rdAddress =>
    exact regCycle_router h fun hk => by cases hk; simp
  | wrWdata _ | wrAddress _ =>
    refine regCycle_router h fun hk => ?_
    split_ifs at hk <;> cases hk <;> simp

/-- Whatever is presented, the cycle's slots are those the router leaves (43_custom_instruction R212). -/
theorem step_router {s t : State} (h : step s = .next t) : RouterEq s.advance t := by
  unfold step at h
  split at h
  · exact idleCycle_router h
  · split at h
    · exact exec_router h
    · next e _ =>
      cases e with
      | outsideWindow | inactiveRequest => exact idleCycle_router h
      | badRegisterAccess => exact regCycle_router h fun hk => by cases hk; simp
      | slotTooWide | addressTooWide => exact absurd (whenLive_next.1 h).2 (by simp)

/-- Without a delivery the slots stay. -/
theorem deliver_slots_of_not_waiting {s : State}
    (h : ¬ (s.cfg.frontEnd = .ci ∧ s.ciState = .wait ∧ s.fsm = .response)) : s.deliver.slots = s.slots := by
  unfold State.deliver
  cases hf : s.cfg.frontEnd with
  | reg =>
    rw [State.deliverStatus]
    split_ifs <;> rfl
  | ci => simp [State.route, show ¬ (s.ciState = .wait ∧ s.fsm = .response) from fun hw => h ⟨hf, hw⟩]
  | both => rfl

/-- Settles O54: the one slot the delivery lists is `ci_rd`. -/
theorem routerWritesOneSlot : Obligations.RouterWritesOneSlot := by
  unfold Obligations.RouterWritesOneSlot
  intro s t h x
  obtain ⟨hslots, hresponse⟩ := step_router h
  by_cases hw : s.cfg.frontEnd = .ci ∧ s.ciState = .wait ∧ s.fsm = .response
  · obtain ⟨hf, hci, hfsm⟩ := hw
    obtain ⟨hresp, hstate⟩ := hresponse hf hfsm
    rw [deliver_of_wait (s := s.advance) hf hci hfsm] at hslots hresp hstate
    rw [hslots, Memory.find_put, hresp, hstate]
    refine ⟨fun ⟨_, _, _, hx⟩ => ?_, fun hno => if_neg fun hx => hno ⟨hf, hci, hfsm, hx⟩⟩
    subst hx
    exact ⟨if_pos rfl, rfl, rfl⟩
  · rw [hslots, deliver_slots_of_not_waiting (s := s.advance) hw]
    exact ⟨fun ⟨hf, hci, hfsm, _⟩ => absurd ⟨hf, hci, hfsm⟩ hw, fun _ => rfl⟩

/-! ### The two front ends agree -/

/-- A comparison sees nothing of a block but the bank, the number of entries and the width of the key
(20_memory R52, R53). -/
theorem State.SameBank.sbCompare {s r : State} (h : s.SameBank r) (hentries : r.cfg.entries = s.cfg.entries)
    (hkeyW : r.cfg.keyW = s.cfg.keyW) (k : Key) : r.sbCompare k = s.sbCompare k := by
  have hbytes (a : Nat) : r.valueByte a = s.valueByte a ∧ r.careByte a = s.careByte a := h a
  simp only [State.sbCompare, State.hit, hbytes, hentries, hkeyW]

theorem State.SameBank.trans {s r w : State} (hr : s.SameBank r) (hw : r.SameBank w) : s.SameBank w := by
  intro a
  obtain ⟨hvalue, hcare⟩ := hr a
  obtain ⟨hvalue', hcare'⟩ := hw a
  exact ⟨hvalue'.trans hvalue, hcare'.trans hcare⟩

/-- A presented command and the three cycles after it, run at once. -/
theorem runCycles_of_traversal {s t1 t2 t3 u : State} {cmd : Command} {i : Instr} (n : Nat)
    (hp : s.presented = some cmd) (hdec : decode s.cfg cmd = .ok i) (h : Traversal i s.advance t1 t2 t3 u) :
    s.runCycles (n + 4) = u.runCycles n := by
  obtain ⟨h1, h2, h3, h4, -⟩ := h
  rw [← step_of_decode hp hdec] at h1
  rw [runCycles_succ _ h1, runCycles_succ _ h2, runCycles_succ _ h3, runCycles_succ _ h4]

/-- The register path of a Search with its result read back, as the host presents it: CONTROL, ADDRESS, three
quiet cycles, the STATUS read and its three cycles (42_register_adapter R173, R175). -/
def searchSequence (c : Config) (v : Word) : List (Option Command) :=
  [some (.rt true (c.base + 0x4) 4 0x02), some (.rt true (c.base + 0xC) 4 v), none, none, none,
    some (.rt false c.base 4 0), none, none, none]

/-- A ready register block after the CONTROL write of that sequence (42_register_adapter R170). -/
def State.armedForSearch (s : State) : State :=
  { s.advance with control := 0x02, ctrlV := true, addrV := false, dataV := false, resp := some (.reg .okay none) }

@[simp] theorem State.armedForSearch_cfg (s : State) : s.armedForSearch.cfg = s.cfg := rfl

/-- A ready adapter stays ready whatever the engine's latch and results hold, which no idle block looks at. -/
theorem State.RegReady.of_eq {s t : State} (h : s.RegReady) (hcfg : t.cfg = s.cfg) (hraised : t.raised = s.raised)
    (hfsm : t.fsm = s.fsm) (hra : t.raState = s.raState) : t.RegReady := by
  obtain ⟨hl, hf, hidle, hready⟩ := h
  exact ⟨hl.of_eq hcfg hraised (strayWrite_of_ne_execute (by simp [hfsm, hidle])), hcfg ▸ hf, hfsm.trans hidle,
    hra.trans hready⟩

/-- The STATUS read of that sequence answers `pma` in its fourth cycle (42_register_adapter R175, R176). -/
theorem runCycles_statusRead {r : State} (hr : r.RegReady)
    (hhost : r.host = [some (.rt false r.cfg.base 4 0), none, none, none]) :
    ∃ w, r.runCycles 4 = .next w ∧ w.pma = r.pma ∧ w.resp = some (.reg .okay (some (zext32 r.pma)))
      ∧ r.SameBank w := by
  have hp : r.presented = some (.rt false r.cfg.base 4 0) := by simp [State.presented, hhost]
  have hq : r.advance.QuietFor 3 := by simp [State.QuietFor, State.advance, hhost]
  obtain ⟨_, _, _, hread, -⟩ := rdStatusEffect r.advance hr hq
  rw [runCycles_of_traversal 0 hp (decodeEncodeRoundTrip r.cfg .rdStatus rfl) hread]
  exact ⟨_, runCycles_zero _, rfl, rfl, fun _ => ⟨rfl, rfl⟩⟩

/-- The whole sequence reads back the PMA of its key, and touches no byte of the bank. -/
theorem runCycles_searchSequence {r : State} {v : Word} (hr : r.RegReady) (hhost : r.host = searchSequence r.cfg v) :
    ∃ w, r.runCycles 9 = .next w ∧ w.pma = priorityEncode (r.sbCompare (keyBits r.cfg.keyW v))
      ∧ w.resp = some (.reg .okay (some (zext32 (priorityEncode (r.sbCompare (keyBits r.cfg.keyW v))))))
      ∧ r.SameBank w := by
  have hpControl : r.presented = some (.rt true (r.cfg.base + 0x4) 4 0x02) := by
    simp [State.presented, hhost, searchSequence]
  have hcontrol : step r = .next r.armedForSearch := by
    rw [step_of_decode hpControl (decodeEncodeRoundTrip r.cfg (.wrControl 0x02) rfl)]
    exact wrControlEffect r.advance 0x02 hr
  have hhostArmed : r.armedForSearch.host = (searchSequence r.cfg v).tail := congrArg List.tail hhost
  have hpAddress : r.armedForSearch.presented = some (.rt true (r.cfg.base + 0xC) 4 v) := by
    simp [State.presented, hhostArmed, searchSequence]
  have hqAddress : r.armedForSearch.advance.QuietFor 3 := by
    simp [State.QuietFor, State.advance, hhostArmed, searchSequence]
  obtain ⟨_, _, _, hsearch, -⟩ :=
    registerSearchEffect r.armedForSearch.advance v hr hqAddress rfl (show (0x02 : Byte)[0] = false by decide)
      (show (0x02 : Byte)[1] = true by decide)
  rw [runCycles_succ 8 hcontrol,
    runCycles_of_traversal 4 hpAddress (decodeEncodeRoundTrip r.cfg (.wrAddress v) rfl) hsearch]
  exact runCycles_statusRead (hr.of_eq rfl rfl rfl rfl) (by simp [State.advance, hhostArmed, searchSequence])

/-- Settles O56: both paths end in one comparison of the same bank with the same key. -/
theorem adaptersAgreeOnSearch : Obligations.AdaptersAgreeOnSearch := by
  unfold Obligations.AdaptersAgreeOnSearch
  intro s r v opB rd hs hq hr hentries hkeyW hbank hhost
  obtain ⟨t1, t2, t3, hsearch⟩ := tcamSearchEffect s v opB rd hs hq
  obtain ⟨w, hrun, hpma, hresp, hsame⟩ := runCycles_searchSequence hr hhost
  rw [hkeyW, hbank.sbCompare hentries hkeyW] at hpma hresp
  exact ⟨t1, t2, t3, _, w, _, hsearch, hrun, by rw [Memory.find_put, if_pos rfl], hresp, hpma,
    hbank.trans hsame⟩

end Sys2Proof.Machine

/-! The exceptions family (60_exceptions): what a refused configuration and a faulted state answer, and the cause of each sticky
flag. The layers are the guard every cycle stands behind, the sticky flags by their fault, and what the cycle of each port
raises, each with the statements it carries. -/

namespace Sys2Proof.Machine

/-! ### The guard of every cycle -/

/-- A configuration that violates 00_scope R8 has no meaning (60_exceptions R234). -/
theorem whenLive_of_not_valid {s : State} (hv : s.cfg.valid = false) (k : Answer State) :
    s.whenLive k = .refused .badConfiguration := if_pos hv

/-- A faulted state answers its own fault (60_exceptions R236; log 9). -/
theorem whenLive_of_raised {s : State} {f : Fault} (hv : s.cfg.valid = true) (hraised : s.raised = some f)
    (k : Answer State) : s.whenLive k = .fault f := by
  simp [State.whenLive, hv, hraised]

theorem exec_eq_whenLive (i : Instr) (s : State) : ∃ k, exec i s = s.whenLive k := by
  cases i <;> exact ⟨_, rfl⟩

theorem undecodedCycle_eq_whenLive (e : DecodeError) (s : State) : ∃ k, undecodedCycle e s = s.whenLive k := by
  cases e <;> exact ⟨_, rfl⟩

/-- Taking the head of what the host presents changes nothing the guard looks at. -/
theorem step_eq_whenLive (s : State) : ∃ k, step s = s.whenLive k := by
  unfold step
  split
  · exact ⟨_, rfl⟩
  · split
    · exact exec_eq_whenLive _ s.advance
    · exact undecodedCycle_eq_whenLive _ s.advance

/-- What the guard answers whatever it guards, every step and every meaning answers. -/
theorem answer_of_whenLive {s : State} {r : Answer State} (h : ∀ k, s.whenLive k = r) :
    step s = r ∧ ∀ i, exec i s = r := by
  constructor
  · obtain ⟨k, hk⟩ := step_eq_whenLive s
    exact hk.trans (h k)
  · intro i
    obtain ⟨k, hk⟩ := exec_eq_whenLive i s
    exact hk.trans (h k)

/-- Settles O50: the constraints are those of `Config.valid`, which the guard looks at first. -/
theorem badConfigurationRefused : Obligations.BadConfigurationRefused := by
  unfold Obligations.BadConfigurationRefused
  intro s hbad
  have hv : s.cfg.valid = false := by
    rw [← Bool.not_eq_true, valid_iff]
    tauto
  exact answer_of_whenLive (whenLive_of_not_valid hv)

/-- Settles O48: the fault is the first set flag's, in the order of 60_exceptions R235. -/
theorem faultedStateStops : Obligations.FaultedStateStops := by
  unfold Obligations.FaultedStateStops
  intro s hv hflag
  have hraised : s.raised ≠ none := by
    rw [ne_eq, raised_eq_none]
    rintro ⟨hsettle, haccess, hmisuse⟩
    simp [hsettle, haccess, hmisuse] at hflag
  obtain ⟨f, hf⟩ := Option.ne_none_iff_exists'.1 hraised
  exact ⟨f, answer_of_whenLive (whenLive_of_raised hv hf)⟩

/-! ### The sticky flags -/

/-- The sticky flag of a fault (60_exceptions R233). -/
def State.flag (s : State) : Fault → Bool
  | .protocolMisuse => s.faultMisuse
  | .settleViolation => s.faultSettle
  | .badRegisterAccess => s.faultAccess

theorem flag_of_raised_none {s : State} (h : s.raised = none) (f : Fault) : s.flag f = false := by
  obtain ⟨hsettle, haccess, hmisuse⟩ := (raised_eq_none s).1 h
  cases f <;> assumption

/-- Raising a fault sets its own flag and no other. -/
theorem flag_raise {s : State} {f g : Fault} : (s.raise f).flag g = true ↔ g = f ∨ s.flag g = true := by
  cases f <;> cases g <;> simp [State.raise, State.flag]

/-- No cycle of the engine and of the delivery raises a fault. -/
@[simp] theorem tick_raised (s : State) (req : Option Request) : (s.tick req).raised = s.raised := by
  obtain ⟨hmisuse, hsettle, haccess, -⟩ := tick_faults s req
  exact raised_congr hsettle haccess hmisuse

/-! The adapters' own updates touch no sticky flag. -/

@[simp] theorem respond_raised (s : State) (r : Response) : (s.respond r).raised = s.raised := rfl
@[simp] theorem hold_raised (s : State) (cmd : Command) : (s.hold cmd).raised = s.raised := rfl
@[simp] theorem awaitResult_raised (s : State) (rd : Nat) : (s.awaitResult rd).raised = s.raised := rfl
@[simp] theorem awaitStatus_raised (s : State) : s.awaitStatus.raised = s.raised := rfl
@[simp] theorem drawn_raised (s : State) : s.drawn.raised = s.raised := rfl
@[simp] theorem armControl_raised (s : State) : s.armControl.raised = s.raised := rfl
@[simp] theorem setControl_raised (s : State) (c : Byte) : (s.setControl c).raised = s.raised := rfl
@[simp] theorem setWdata_raised (s : State) (v : Word) : (s.setWdata v).raised = s.raised := rfl
@[simp] theorem setAddress_raised (s : State) (a : Key) : (s.setAddress a).raised = s.raised := rfl
@[simp] theorem markAddress_raised (s : State) : s.markAddress.raised = s.raised := rfl
@[simp] theorem markData_raised (s : State) : s.markData.raised = s.raised := rfl
@[simp] theorem clearPresence_raised (s : State) : s.clearPresence.raised = s.raised := rfl

/-- Every flag set in `t` is that of a fault `cause` holds of. -/
def State.FaultedOnlyBy (t : State) (cause : Fault → Prop) : Prop := ∀ f, t.flag f = true → cause f

theorem faultedOnlyBy_of_raised_none {t : State} {cause : Fault → Prop} (h : t.raised = none) :
    t.FaultedOnlyBy cause := fun f hf => by simp [flag_of_raised_none h f] at hf

/-- A fault raised on a faultless state needs only its own cause. -/
theorem faultedOnlyBy_raise {s : State} {cause : Fault → Prop} {f : Fault} (h : s.raised = none) (hf : cause f) :
    (s.raise f).FaultedOnlyBy cause := by
  intro g hg
  rcases flag_raise.1 hg with rfl | hs
  · exact hf
  · simp [flag_of_raised_none h g] at hs

/-! ### What the cycle of each port raises -/

/-- The cause of each fault in a cycle that starts in `s` and in which `p` is presented (42_register_adapter R167, R168, R172;
60_exceptions R233, R235). -/
def State.Cause (s : State) (p : Option Command) : Fault → Prop
  | .protocolMisuse => s.ctrlV = false ∧ s.fsm = .idle ∧
      ∃ a v, p = some (.rt true a 4 v) ∧ (a = s.cfg.base + 0x8 ∨ a = s.cfg.base + 0xC)
  | .settleViolation => (s.fsm ≠ .idle ∨ s.raState = .waitStatus) ∧
      ∃ we a sz v, p = some (.rt we a sz v) ∧ s.cfg.base ≤ a ∧ a < s.cfg.base + 0x10
  | .badRegisterAccess => s.fsm = .idle ∧
      ∃ we a sz v, p = some (.rt we a sz v) ∧ s.cfg.base ≤ a ∧ a < s.cfg.base + 0x10
        ∧ (sz ≠ 4 ∨ a - s.cfg.base ∉ [0x0, 0x4, 0x8, 0xC])

theorem idleCycle_raised {s t : State} (h : s.idleCycle = .next t) : t.raised = none := by
  obtain ⟨⟨-, hnone, -⟩, h⟩ := whenLive_next.1 h
  cases h
  simpa using hnone

theorem engCycle_raised {s t : State} {r : Request} (h : s.engCycle r = .next t) : t.raised = none := by
  obtain ⟨⟨-, hnone, -⟩, rfl, -⟩ := engCycle_next h
  simpa using hnone

/-- The instruction front end has no faults: a command is held, rejected or accepted (60_exceptions R233). -/
theorem ciCycle_raised {s t : State} {cmd : Command} {r : Request} {rd : Nat} {c : Bool} {a : Nat}
    (h : s.ciCycle cmd r rd c a = .next t) : t.raised = none := by
  obtain ⟨⟨-, hnone, -⟩, -, ⟨-, rfl⟩ | ⟨-, -, -, rfl⟩ | ⟨-, -, rfl⟩⟩ := ciCycle_next h
  · simpa using hnone
  · simpa using hnone
  · simpa using hnone

theorem busy_of_not_regAccepts {s : State} (h : s.regAccepts = false) : s.fsm ≠ .idle ∨ s.raState = .waitStatus := by
  by_contra hno
  obtain ⟨hidle, hra⟩ := not_or.1 hno
  cases hstate : s.raState with
  | waitStatus => exact hra hstate
  | ready => simp [State.regAccepts, not_not.1 hidle, hstate] at h

/-- A transaction inside the window raises SettleViolation only where the adapter cannot accept it, and is dispatched only
where the adapter is ready (42_register_adapter R168, R169). -/
theorem regCycle_faults {s t : State} {k : Answer State} {we : Bool} {off sz : Nat} {v : Word}
    (h : s.regCycle k = .next t) (hoff : off < 0x10)
    (hk : s.RegReady → k = .next t → t.FaultedOnlyBy (s.Cause (some (.rt we (s.cfg.base + off) sz v)))) :
    t.FaultedOnlyBy (s.Cause (some (.rt we (s.cfg.base + off) sz v))) := by
  obtain ⟨hl, hf, ⟨hbusy, rfl⟩ | ⟨hacc, ht⟩⟩ := regCycle_next h
  · obtain ⟨-, hnone, -⟩ := hl
    exact faultedOnlyBy_raise (by simpa using hnone)
      ⟨busy_of_not_regAccepts hbusy, _, _, _, _, rfl, Nat.le_add_right _ _, Nat.add_lt_add_left hoff _⟩
  · exact hk (.of_regAccepts hl hf hacc) ht

theorem State.RegReady.raised_none {s : State} (h : s.RegReady) : s.raised = none := by
  obtain ⟨-, hnone, -⟩ := h.live
  exact hnone

/-- A misuse at either of its two registers. -/
theorem State.RegReady.misuse_faults {s : State} {off : Nat} (h : s.RegReady) (hctrl : s.ctrlV = false)
    (hoff : off = 0x8 ∨ off = 0xC) (v : Word) :
    ((s.tick none).raise .protocolMisuse).FaultedOnlyBy (s.Cause (some (.rt true (s.cfg.base + off) 4 v))) :=
  faultedOnlyBy_raise (by simp [h.raised_none])
    ⟨hctrl, h.idle, _, v, rfl, hoff.imp (congrArg _) (congrArg _)⟩

theorem execWrWdata_faults {v : Word} {s t : State} (h : execWrWdata v s = .next t) :
    t.FaultedOnlyBy (s.Cause (some (.rt true (s.cfg.base + 0x8) 4 v))) := by
  refine regCycle_faults h (by decide) fun hready hk => ?_
  split_ifs at hk with hctrl <;> cases hk
  · exact hready.misuse_faults hctrl (.inl rfl) v
  · exact faultedOnlyBy_of_raised_none (by simp [hready.raised_none])
  · exact faultedOnlyBy_of_raised_none (by simp [hready.raised_none])

theorem execWrAddress_faults {v : Word} {s t : State} (h : execWrAddress v s = .next t) :
    t.FaultedOnlyBy (s.Cause (some (.rt true (s.cfg.base + 0xC) 4 v))) := by
  refine regCycle_faults h (by decide) fun hready hk => ?_
  split_ifs at hk with hctrl <;> cases hk
  · exact hready.misuse_faults hctrl (.inr rfl) v
  all_goals exact faultedOnlyBy_of_raised_none (by simp [hready.raised_none])

/-- The meaning of a command raises a fault only for the cause its own tuple gives. -/
theorem exec_faults {i : Instr} {s t : State} (h : exec i s = .next t) :
    t.FaultedOnlyBy (s.Cause (some (encode s.cfg i))) := by
  cases i with
  | tcamWrite _ _ _ | tcamRead _ _ _ | tcamSearch _ _ _ | tcamStatus _ _ _ =>
    exact faultedOnlyBy_of_raised_none (ciCycle_raised h)
  | engWrite _ _ _ | engRead _ _ _ | engSearch _ _ _ | engStatus _ _ _ =>
    exact faultedOnlyBy_of_raised_none (engCycle_raised h)
  | rdStatus | wrStatus _ | rdControl | wrControl _ | rdWdata | rdAddress =>
    refine regCycle_faults h (by decide) fun hready hk => ?_
    cases hk
    exact faultedOnlyBy_of_raised_none (by simp [hready.raised_none])
  | wrWdata _ => exact execWrWdata_faults h
  | wrAddress _ => exact execWrAddress_faults h

/-- The value of a read transaction, which the encoding does not keep, is no part of a cause (log 26). -/
theorem State.Cause.of_clean {s : State} {cmd : Command} {f : Fault} (h : s.Cause (some cmd.clean) f) :
    s.Cause (some cmd) f := by
  rcases cmd with _ | ⟨_ | _, a, sz, v⟩ | _
  · exact h
  · cases f with
    | protocolMisuse =>
      obtain ⟨-, -, _, _, hcmd, -⟩ := h
      cases hcmd
    | settleViolation | badRegisterAccess =>
      obtain ⟨hstate, _, _, _, _, hcmd, hwindow⟩ := h
      cases hcmd
      exact ⟨hstate, _, _, _, v, rfl, hwindow⟩
  · exact h
  · exact h

/-- Only a transaction inside the window is a bad access, of a wrong width or at an offset of no register
(42_register_adapter R167). -/
theorem bad_of_decode_eq_bad {c : Config} {cmd : Command} (h : decode c cmd = .error .badRegisterAccess) :
    ∃ we off sz v, cmd = .rt we (c.base + off) sz v ∧ off < 0x10 ∧ (sz ≠ 4 ∨ off ∉ [0x0, 0x4, 0x8, 0xC]) := by
  cases cmd with
  | ci _ _ _ _ | er _ _ _ _ _ =>
    simp only [decode] at h
    split_ifs at h <;> cases h
  | rt we a sz v =>
    by_cases hwin : a < c.base ∨ c.windowEnd ≤ a
    · rw [decode, if_pos hwin] at h
      cases h
    · rw [decode, if_neg hwin] at h
      unfold Config.windowEnd at hwin
      obtain ⟨off, rfl⟩ := Nat.exists_eq_add_of_le (show c.base ≤ a by omega)
      refine ⟨we, off, sz, v, rfl, by omega, ?_⟩
      rw [or_iff_not_imp_left, not_not]
      rintro rfl hoff
      simp only [List.mem_cons, List.not_mem_nil, or_false] at hoff
      rcases hoff with rfl | rfl | rfl | rfl <;> simp [decodeRt] at h

/-- Whatever is presented, a step raises a fault only for its cause. -/
theorem step_faults {s t : State} (h : step s = .next t) : t.FaultedOnlyBy (s.Cause s.presented) := by
  unfold step at h
  split at h
  · exact faultedOnlyBy_of_raised_none (idleCycle_raised h)
  · next cmd hp =>
    rw [hp]
    split at h
    · next i hdec =>
      obtain ⟨-, hclean⟩ := decodeAcceptsOnlyEncodings _ _ _ hdec
      intro f hf
      exact .of_clean (hclean ▸ exec_faults h f hf)
    · next e hdec =>
      cases e with
      | outsideWindow | inactiveRequest => exact faultedOnlyBy_of_raised_none (idleCycle_raised h)
      | badRegisterAccess =>
        obtain ⟨we, off, sz, v, rfl, hoff, hbad⟩ := bad_of_decode_eq_bad hdec
        refine regCycle_faults (s := s.advance) h hoff fun hready hk => ?_
        cases hk
        exact faultedOnlyBy_raise (by simp [hready.raised_none])
          ⟨hready.idle, we, _, sz, v, rfl, Nat.le_add_right _ _, Nat.add_lt_add_left hoff _, by simpa using hbad⟩
      | slotTooWide | addressTooWide => exact absurd (whenLive_next.1 h).2 (by simp)

/-- Settles O49: each clause is the cause of its own flag. -/
theorem faultFlagsHaveCauses : Obligations.FaultFlagsHaveCauses := by
  unfold Obligations.FaultFlagsHaveCauses
  intro s t h
  exact ⟨step_faults h .protocolMisuse, step_faults h .settleViolation, step_faults h .badRegisterAccess⟩

end Sys2Proof.Machine

/-! The reset and hazards family (70_reset_and_hazards): the construction parameters, the first Search after instantiation,
and the settle delay after a trigger. The layers of the last are the count of the busy cycles, what an accepted command
leaves, what the quiet cycles of a busy block leave, and the next transaction. -/

namespace Sys2Proof.Machine

/-! ### The construction parameters -/

/-- Settles O52: a step and a meaning alike are one cycle of the engine, which writes no parameter. -/
theorem parametersNeverChange : Obligations.ParametersNeverChange := by
  unfold Obligations.ParametersNeverChange
  intro s t h
  obtain ⟨req, hcfg, -⟩ := exists_tick_of_answer h
  obtain ⟨-, -, -, hkeep⟩ := tick_faults s req
  exact hcfg.trans hkeep

/-! ### The first Search -/

/-- A fresh block has raised no fault, and its adapters wait for nothing (10_state R39). -/
theorem instantiate_ciReady {c : Config} (hv : c.valid = true) (hf : c.frontEnd = .ci) :
    (State.instantiate c).CiReady :=
  ⟨⟨hv, rfl, rfl⟩, hf, rfl, rfl⟩

/-- A lane nothing cares about agrees with every key (20_memory R52). -/
theorem hitLane_of_care_zero (v k kmask : Byte) : hitLane v 0 k kmask = true := by
  simp [hitLane]

/-- A fresh block cares about no bit, so every entry matches every key (70_reset_and_hazards R263). -/
theorem instantiate_hit (c : Config) (i : Nat) (k : Key) : (State.instantiate c).hit i k = true :=
  List.all_eq_true.2 fun _ _ => hitLane_of_care_zero _ _ _

theorem instantiate_sbCompare (c : Config) (k : Key) :
    (State.instantiate c).sbCompare k = List.replicate c.entries true := by
  refine List.eq_replicate_iff.2 ⟨length_sbCompare _ _, fun b hb => ?_⟩
  obtain ⟨i, -, rfl⟩ := mem_sbCompare.1 hb
  exact instantiate_hit c i k

/-- Settles O8: the lowest of all the set flags is entry 0's. -/
theorem firstSearchReturnsZero : Obligations.FirstSearchReturnsZero := by
  unfold Obligations.FirstSearchReturnsZero
  intro c opA opB rd hv hf
  have hq : (State.instantiate c).QuietFor 3 := by simp [State.QuietFor, State.instantiate]
  obtain ⟨t1, t2, t3, hsearch⟩ :=
    tcamSearchEffect (State.instantiate c) opA opB rd (instantiate_ciReady hv hf) hq
  have hfirst : priorityEncode (List.replicate c.entries true) = 0 := by
    obtain ⟨-, -, hpos, -⟩ := (valid_iff c).1 hv
    rw [← Nat.sub_add_cancel hpos]
    rfl
  rw [instantiate_sbCompare, hfirst] at hsearch
  exact ⟨t1, t2, t3, _, hsearch, rfl, rfl, by rw [Memory.find_put, if_pos rfl]; rfl⟩

/-! ### The settle delay: the count of the busy cycles -/

/-- How many cycles a busy engine still takes to IDLE (40_control_engine R104). -/
def Fsm.cyclesLeft : Fsm → Nat
  | .idle => 0
  | .execute => 3
  | .probe => 2
  | .response => 1

theorem Fsm.cyclesLeft_eq_zero {f : Fsm} : f.cyclesLeft = 0 ↔ f = .idle := by
  cases f <;> decide

/-- Each cycle of a busy engine is one of them. -/
theorem Fsm.cyclesLeft_afterBusy (f : Fsm) : f.afterBusy.cyclesLeft = f.cyclesLeft - 1 := by
  cases f <;> rfl

/-- A fault-free register block whose adapter is ready in `k` cycles if nothing is presented until then
(70_reset_and_hazards R270). -/
def State.ReadyIn (s : State) (k : Nat) : Prop :=
  s.Live ∧ s.cfg.frontEnd = .reg ∧ s.fsm.cyclesLeft = k ∧ (s.fsm = .idle → s.raState = .ready)

theorem State.ReadyIn.regReady {s : State} (h : s.ReadyIn 0) : s.RegReady := by
  obtain ⟨hl, hf, hcount, hra⟩ := h
  have hidle := Fsm.cyclesLeft_eq_zero.1 hcount
  exact ⟨hl, hf, hidle, hra hidle⟩

theorem State.ReadyIn.busy {s : State} {k : Nat} (h : s.ReadyIn k) (hk : 0 < k) : s.fsm ≠ .idle := by
  obtain ⟨-, -, rfl, -⟩ := h
  exact fun hidle => hk.ne' (Fsm.cyclesLeft_eq_zero.2 hidle)

/-! ### The settle delay: what an accepted command leaves -/

/-- `t`, left by the cycle `s` accepted a command in, is three cycles from ready if an operation started and is otherwise
idle with its adapter ready; the cycle takes nothing more of what the host presents. -/
def State.Triggers (s t : State) : Prop :=
  t.cfg = s.cfg ∧ t.host = s.host ∧ (t.ReadyIn 3 ∨ (t.fsm = .idle ∧ t.raState = .ready))

/-- An operation started at an entry, where it needs one: the adapter's updates on top of the latch touch nothing that
counts. -/
theorem State.RegReady.triggers_of_latch {s t : State} {r : Request} (h : s.RegReady)
    (ha : r.op.takesAddress = true → r.addr.toNat < s.cfg.entries) (hengine : EngineEq t (s.quiet.latch r))
    (hraised : t.raised = s.raised) (hhost : t.host = s.host) : s.Triggers t := by
  obtain ⟨hcfg, hfsm, hop, haddr, -⟩ := hengine
  have hlatch := h.latch_live ha
  have hstray : t.strayWrite = (s.quiet.latch r).strayWrite := by
    simp only [State.strayWrite, hcfg, hfsm, hop, haddr]
  have hlive : t.Live := by
    obtain ⟨hv, hnone, hno⟩ := hlatch
    exact ⟨hcfg ▸ hv, hraised.trans hnone, hstray.trans hno⟩
  have hexecute : t.fsm = .execute := hfsm
  obtain ⟨-, hf, -⟩ := h
  exact ⟨hcfg, hhost, .inl ⟨hlive, hcfg ▸ hf, by rw [hexecute]; rfl, by simp [hexecute]⟩⟩

/-- A cycle that starts nothing leaves the engine and the adapter as they were. -/
theorem State.RegReady.triggers_of_idle {s t : State} (h : s.RegReady) (hcfg : t.cfg = s.cfg) (hhost : t.host = s.host)
    (hfsm : t.fsm = s.fsm) (hra : t.raState = s.raState) : s.Triggers t := by
  obtain ⟨-, -, hidle, hready⟩ := h
  exact ⟨hcfg, hhost, .inr ⟨hfsm.trans hidle, hra.trans hready⟩⟩

/-- The Write a WDATA access starts goes to ADDRESS, which the invariant keeps in range (42_register_adapter R174). -/
theorem State.RegReady.triggers_of_wrWdata {s t : State} {v : Word} (h : s.RegReady) (hinv : s.Inv)
    (ht : exec (.wrWdata v) s = .next t) : s.Triggers t := by
  rw [exec, execWrWdata, h.regCycle, h.tick_none] at ht
  split_ifs at ht with hctrl hstart <;> cases ht
  · exact h.triggers_of_idle rfl rfl rfl rfl
  · obtain ⟨hcsb, hweb, haddrV⟩ := hstart
    rw [h.tick_some rfl]
    exact h.triggers_of_latch (r := regWriteRequest s.address v s.control)
      (fun _ => hinv.address_lt_entries haddrV hcsb hweb) (by simp [EngineEq]) rfl rfl
  · exact h.triggers_of_idle rfl rfl rfl rfl

/-- The Write an ADDRESS access starts has passed its own range check (42_register_adapter R171, R173). -/
theorem State.RegReady.triggers_of_wrAddress {s t : State} {v : Word} (h : s.RegReady)
    (ht : exec (.wrAddress v) s = .next t) : s.Triggers t := by
  rw [exec, execWrAddress, h.regCycle, h.tick_none] at ht
  split_ifs at ht with hctrl hcsb hweb hout hdata <;> cases ht
  · exact h.triggers_of_idle rfl rfl rfl rfl
  · exact h.triggers_of_idle rfl rfl rfl rfl
  · rw [h.tick_some rfl]
    exact h.triggers_of_latch (r := regSearchRequest (keyBits s.cfg.keyW v)) (fun hop => by cases hop)
      (by simp [EngineEq]) rfl rfl
  · exact h.triggers_of_idle rfl rfl rfl rfl
  · obtain ⟨hv, -⟩ := h.live
    rw [h.tick_some rfl]
    exact h.triggers_of_latch (r := regWriteRequest (keyBits s.cfg.keyW v) s.wdata s.control)
      (fun _ => keyBits_lt_entries hv (not_le.1 hout)) (by simp [EngineEq]) rfl rfl
  · exact h.triggers_of_idle rfl rfl rfl rfl

/-- A directly driven active request of an idle engine always starts its operation. -/
theorem State.RegReady.triggers_of_engCycle {s t : State} {r : Request} (h : s.RegReady) (hr : r.csb = false)
    (ht : s.engCycle r = .next t) : s.Triggers t := by
  obtain ⟨-, rfl, ha⟩ := engCycle_next ht
  rw [h.tick_some hr]
  exact h.triggers_of_latch (ha h.idle) (EngineEq.refl _) rfl rfl

/-- Every command a ready register block gives a next state to. -/
theorem State.RegReady.triggers {i : Instr} {s t : State} (h : s.RegReady) (hinv : s.Inv) (ht : exec i s = .next t) :
    s.Triggers t := by
  cases i with
  | tcamWrite _ _ _ | tcamRead _ _ _ | tcamSearch _ _ _ | tcamStatus _ _ _ =>
    obtain ⟨hl, hf, -⟩ := h
    exact absurd ((ciCycle_absent hl (by simp [hf]) _ _ _ _ _).symm.trans ht) (by simp)
  | engWrite _ _ _ | engRead _ _ _ | engSearch _ _ _ | engStatus _ _ _ => exact h.triggers_of_engCycle rfl ht
  | rdStatus =>
    cases h.exec_rdStatus.symm.trans ht
    exact h.triggers_of_latch (r := statusRequest) (fun hop => by cases hop) (by simp [EngineEq]) rfl rfl
  | wrStatus _ | rdControl | wrControl _ | rdWdata | rdAddress =>
    cases (h.regCycle _).symm.trans ht
    rw [h.tick_none]
    exact h.triggers_of_idle rfl rfl rfl rfl
  | wrWdata _ => exact h.triggers_of_wrWdata hinv ht
  | wrAddress _ => exact h.triggers_of_wrAddress ht

/-! ### The settle delay: the quiet cycles of a busy block -/

/-- The RESPONSE cycle leaves the register adapter ready, whether it waited or not (42_register_adapter R176). -/
theorem deliver_raState_of_response {s : State} (hf : s.cfg.frontEnd = .reg) (hresponse : s.fsm = .response) :
    s.deliver.raState = .ready := by
  cases hra : s.raState with
  | ready => rw [deliver_of_ready (fun _ => hra) (by simp [hf]), State.quiet_raState, hra]
  | waitStatus => rw [deliver_of_waitStatus hf hra hresponse]

/-- A quiet cycle brings the adapter one cycle nearer to ready. -/
theorem State.ReadyIn.step_quiet {s : State} {k : Nat} (h : s.ReadyIn (k + 1)) (hp : s.presented = none) :
    ∃ t, step s = .next t ∧ t.ReadyIn k ∧ t.cfg = s.cfg ∧ t.host = s.host.tail := by
  have hbusy := h.busy k.succ_pos
  obtain ⟨hl, hf, hcount, -⟩ := h
  have hstep := Machine.step_quiet hl hp
  obtain ⟨-, -, -, hcfg⟩ := tick_faults s.advance none
  have hfsm := step_fsm_of_busy hstep rfl hbusy
  refine ⟨_, hstep, ⟨hl.advance.tick_of_busy hbusy none, hcfg ▸ hf, ?_, fun hidle => ?_⟩, hcfg, tick_host _ _⟩
  · rw [hfsm, Fsm.cyclesLeft_afterBusy, hcount, Nat.add_sub_cancel]
  · have hresponse : s.fsm = .response := by
      rw [hfsm] at hidle
      cases hs : s.fsm with
      | idle => exact absurd hs hbusy
      | execute | probe => simp [hs, Fsm.afterBusy] at hidle
      | response => rfl
    rw [tick_response (s := s.advance) none hresponse]
    exact deliver_raState_of_response (s := s.advance) hf hresponse

/-- So do `n` quiet cycles, by `n`. -/
theorem State.ReadyIn.runCycles_quiet {s : State} {n k : Nat} {rest : List (Option Command)} (h : s.ReadyIn (n + k))
    (hhost : s.host = List.replicate n none ++ rest) :
    ∃ u, s.runCycles n = .next u ∧ u.ReadyIn k ∧ u.cfg = s.cfg ∧ u.host = rest := by
  induction n generalizing s with
  | zero => exact ⟨s, runCycles_zero s, by simpa using h, rfl, by simpa using hhost⟩
  | succ n ih =>
    have hhead : s.host = none :: (List.replicate n none ++ rest) := hhost
    obtain ⟨t, hstep, ht, hcfg, htail⟩ :=
      State.ReadyIn.step_quiet (k := n + k) (by rwa [Nat.add_right_comm]) (by simp [State.presented, hhead])
    obtain ⟨u, hrun, hu, hcfg', hrest⟩ := ih ht (htail.trans (congrArg List.tail hhead))
    exact ⟨u, (runCycles_succ n hstep).trans hrun, hu, hcfg'.trans hcfg, hrest⟩

/-! ### The settle delay: the next transaction -/

/-- The window is the configuration's (20_memory R58). -/
theorem State.InWindow.of_cfg_eq {s u : State} {cmd : Command} (h : s.InWindow cmd) (hcfg : u.cfg = s.cfg) :
    u.InWindow cmd := by
  cases cmd with
  | ci _ _ _ _ | er _ _ _ _ _ => exact h
  | rt _ _ _ _ => rwa [State.InWindow, hcfg]

/-- A transaction presented too early (42_register_adapter R168). -/
theorem State.ReadyIn.step_early {u : State} {k : Nat} {cmd : Command} (h : u.ReadyIn k) (hk : 0 < k)
    (hp : u.presented = some cmd) (hw : u.InWindow cmd) : ∃ w, step u = .next w ∧ w.faultSettle = true := by
  have hbusy := h.busy hk
  obtain ⟨hl, hf, -⟩ := h
  obtain ⟨dispatch, hstep⟩ := step_of_inWindow hp hw
  exact ⟨_, hstep.trans (regCycle_of_busy hl.advance hf (.inl hbusy) dispatch), rfl⟩

/-- A ready adapter raises no SettleViolation, whatever is presented (42_register_adapter R168). -/
theorem State.RegReady.step_faultSettle {u w : State} (h : u.RegReady) (hw : step u = .next w) :
    w.faultSettle = false := by
  obtain ⟨-, -, hidle, hra⟩ := h
  rw [← Bool.not_eq_true]
  intro hflag
  obtain ⟨hbusy | hwait, -⟩ := step_faults hw .settleViolation hflag
  · exact hbusy hidle
  · simp [hra] at hwait

/-- Settles O43: the cycle of the transaction is told by the count of the busy cycles that the quiet ones leave. -/
theorem settleDelayAfterTrigger : Obligations.SettleDelayAfterTrigger := by
  unfold Obligations.SettleDelayAfterTrigger
  intro s t i h hinv ht
  obtain ⟨hcfg, hhost, hstate⟩ := h.triggers hinv ht
  refine ⟨fun cmd n rest hbusy hpresent hw => ?_, fun hidle hraised => ?_⟩
  · have h3 : t.ReadyIn 3 := hstate.resolve_right fun ⟨hidle, _⟩ => hbusy hidle
    refine ⟨fun hn => ?_, ?_⟩
    · rw [← Nat.add_sub_cancel' hn.le] at h3
      obtain ⟨u, hrun, hu, hcfg', hrest⟩ := h3.runCycles_quiet (hhost.trans hpresent)
      obtain ⟨w, hstep, hflag⟩ :=
        hu.step_early (Nat.sub_pos_of_lt hn) (by simp [State.presented, hrest]) (hw.of_cfg_eq (hcfg'.trans hcfg))
      exact ⟨u, w, hrun, hstep, hflag⟩
    · rintro rfl
      obtain ⟨u, hrun, hu, -⟩ := State.ReadyIn.runCycles_quiet (k := 0) h3 (hhost.trans hpresent)
      exact ⟨u, hrun, hu.regReady, fun _ => hu.regReady.step_faultSettle⟩
  · obtain ⟨-, hra⟩ : t.fsm = .idle ∧ t.raState = .ready :=
      hstate.resolve_left fun h3 => h3.busy (by decide) hidle
    have hlive : t.Live :=
      h.live.of_eq hcfg (hraised.trans h.raised_none.symm) (strayWrite_of_ne_execute (by simp [hidle]))
    obtain ⟨-, hf, -⟩ := h
    exact ⟨hlive, hcfg ▸ hf, hidle, hra⟩

end Sys2Proof.Machine
